-- ==== Sys2Proof/Word.lean ====
section
/-! DEFINITION. The widths the spec names: the data byte (R8, R21), the 16-bit instruction word and the
16-bit registers I and PC (R5, R70), the 4-bit fields x, y and n and the 12-bit field nnn (R71). -/

namespace Sys2Proof

/-- A memory byte, a V register, a timer, or the field kk (R5, R21, R29, R71). -/
abbrev Byte := BitVec 8

/-- An instruction word, the registers I and PC, a call-stack entry (R5, R24, R25, R27, R70). -/
abbrev Word := BitVec 16

/-- The fields x, y and n, the family digit, and the host's key index (R71, R233). -/
abbrev Nibble := BitVec 4

/-- The address immediate nnn (R71). -/
abbrev Addr12 := BitVec 12

end Sys2Proof
end

