-- ==== Sys2Proof/Config.lean ====
section
/-! DEFINITION. What is fixed for this hardware (R5, R51), the default of the parameter FONT (R6, R261,
D11), and the two free values of the spec: the random byte RND (R6, R142, D10) and the number of timer
ticks TICKS (R6, R232, D17). -/

namespace Sys2Proof.Config

/-- Memory has 4096 bytes, addresses 0..4095 (R5, R50). -/
@[simp] abbrev memSize : Nat := 4096

/-- The highest address, 0xFFF (R10, R52). -/
@[simp] abbrev lastAddr : Nat := 0xFFF

/-- The highest address an instruction can be fetched from, 0xFFE (R73). -/
@[simp] abbrev lastFetch : Nat := 0xFFE

/-- The program load address and reset value of PC (R5, R38, R260). -/
@[simp] abbrev loadBase : Nat := 0x200

/-- The largest program image, 4096 - 0x200 bytes (R5, R262). -/
@[simp] abbrev maxImage : Nat := 3584

/-- The call stack has 64 entries (R5, R27). -/
@[simp] abbrev stackDepth : Nat := 64

/-- The display has 64 columns (R5, R30). -/
@[simp] abbrev columns : Nat := 64

/-- The display has 32 rows (R5, R30). -/
@[simp] abbrev rows : Nat := 32

/-- The font table has 16 glyphs of 5 bytes (R5, R51). -/
@[simp] abbrev fontSize : Nat := 80

/-- Glyphs 0 to 7 of the default font of D11. PRESUMED, assumption 1. -/
def fontLow : List Byte :=
  [0xF0, 0x90, 0x90, 0x90, 0xF0] ++ [0x20, 0x60, 0x20, 0x20, 0x70] ++
  [0xF0, 0x10, 0xF0, 0x80, 0xF0] ++ [0xF0, 0x10, 0xF0, 0x10, 0xF0] ++
  [0x90, 0x90, 0xF0, 0x10, 0x10] ++ [0xF0, 0x80, 0xF0, 0x10, 0xF0] ++
  [0xF0, 0x80, 0xF0, 0x90, 0xF0] ++ [0xF0, 0x10, 0x20, 0x40, 0x40]

/-- Glyphs 8 to F of the default font of D11. PRESUMED, assumption 1. -/
def fontHigh : List Byte :=
  [0xF0, 0x90, 0xF0, 0x90, 0xF0] ++ [0xF0, 0x90, 0xF0, 0x10, 0xF0] ++
  [0xF0, 0x90, 0xF0, 0x90, 0x90] ++ [0xE0, 0x90, 0xE0, 0x90, 0xE0] ++
  [0xF0, 0x80, 0x80, 0x80, 0xF0] ++ [0xE0, 0x90, 0x90, 0x90, 0xE0] ++
  [0xF0, 0x80, 0xF0, 0x80, 0xF0] ++ [0xF0, 0x80, 0xF0, 0x80, 0x80]

/-- The 80 bytes D11 gives as the default of the parameter FONT. PRESUMED, assumption 1: the spec itself
marks them as general knowledge. -/
def defaultFont : Vector Byte fontSize := ⟨(fontLow ++ fontHigh).toArray, by decide⟩

/-- FREE VALUE (R6, R142, D10; assumption 2). The byte the random source gives at its n-th draw when the
host has supplied none: nothing constrains it. -/
opaque freeRandomByte : Nat → Byte

/-- FREE VALUE (R6, R232, D17; assumption 3). The number of timer ticks at the tick point of the n-th
cycle when the host's script says none: nothing constrains it. -/
opaque freeTicks : Nat → Nat

end Sys2Proof.Config
end

