-- ==== Sys2Proof/Syntax.lean ====
section
/-! DEFINITION. The 34 instructions of the opcode map (R77), one constructor per row of
spec/opcode_table.json, in the table's order, with the operand fields of R71 as their arguments. -/

namespace Sys2Proof

inductive Instr where
  /-- 00E0, CLS (R181). -/
  | cls
  /-- 00EE, RET (R101). -/
  | ret
  /-- 1nnn, JP nnn (R102). -/
  | jp (nnn : Addr12)
  /-- 2nnn, CALL nnn (R103). -/
  | call (nnn : Addr12)
  /-- 3xkk, SE Vx, kk (R106). -/
  | seByte (x : Nibble) (kk : Byte)
  /-- 4xkk, SNE Vx, kk (R107). -/
  | sneByte (x : Nibble) (kk : Byte)
  /-- 5xy0, SE Vx, Vy (R108). -/
  | seReg (x y : Nibble)
  /-- 6xkk, LD Vx, kk (R131). -/
  | ldByte (x : Nibble) (kk : Byte)
  /-- 7xkk, ADD Vx, kk (R132). -/
  | addByte (x : Nibble) (kk : Byte)
  /-- 8xy0, LD Vx, Vy (R133). -/
  | ldReg (x y : Nibble)
  /-- 8xy1, OR Vx, Vy (R134). -/
  | orReg (x y : Nibble)
  /-- 8xy2, AND Vx, Vy (R135). -/
  | andReg (x y : Nibble)
  /-- 8xy3, XOR Vx, Vy (R136). -/
  | xorReg (x y : Nibble)
  /-- 8xy4, ADD Vx, Vy (R137). -/
  | addReg (x y : Nibble)
  /-- 8xy5, SUB Vx, Vy (R138). -/
  | subReg (x y : Nibble)
  /-- 8xy6, SHR Vx {, Vy} (R139): y is part of the word and is not read. -/
  | shr (x y : Nibble)
  /-- 8xy7, SUBN Vx, Vy (R140). -/
  | subnReg (x y : Nibble)
  /-- 8xyE, SHL Vx {, Vy} (R141): y is part of the word and is not read. -/
  | shl (x y : Nibble)
  /-- 9xy0, SNE Vx, Vy (R109). -/
  | sneReg (x y : Nibble)
  /-- Annn, LD I, nnn (R161). -/
  | ldI (nnn : Addr12)
  /-- Bnnn, JP V0, nnn (R110). -/
  | jpV0 (nnn : Addr12)
  /-- Cxkk, RND Vx, kk (R142). -/
  | rnd (x : Nibble) (kk : Byte)
  /-- Dxyn, DRW Vx, Vy, n (R182). -/
  | drw (x y n : Nibble)
  /-- Ex9E, SKP Vx (R200). -/
  | skp (x : Nibble)
  /-- ExA1, SKNP Vx (R201). -/
  | sknp (x : Nibble)
  /-- Fx07, LD Vx, DT (R202). -/
  | ldVxDT (x : Nibble)
  /-- Fx0A, LD Vx, K (R203). -/
  | ldVxK (x : Nibble)
  /-- Fx15, LD DT, Vx (R204). -/
  | ldDTVx (x : Nibble)
  /-- Fx18, LD ST, Vx (R205). -/
  | ldSTVx (x : Nibble)
  /-- Fx1E, ADD I, Vx (R162). -/
  | addI (x : Nibble)
  /-- Fx29, LD F, Vx (R163). -/
  | ldF (x : Nibble)
  /-- Fx33, LD B, Vx (R164). -/
  | ldB (x : Nibble)
  /-- Fx55, LD [I], Vx (R165): the block store. -/
  | storeRegs (x : Nibble)
  /-- Fx65, LD Vx, [I] (R166): the block load. -/
  | loadRegs (x : Nibble)
  deriving DecidableEq, Repr

end Sys2Proof
end

