-- ==== Sys2Proof/WellFormed.lean ====
section
/-! DEFINITION. Which terms the hardware can be given. The operands of an instruction carry their
ranges in their types (R72: "every register index an instruction decodes is in range"), so the one
check left with something to refuse is the host's program image (R237, R262). -/

namespace Sys2Proof

/-- Every term of Instr is the reading of some word: x, y and n have 4 bits, kk 8 and nnn 12 (R71, R72).
No operand can be out of range, so there is nothing to refuse. -/
def Instr.wf (_ : Instr) : Bool := true

/-- The load port takes a byte sequence of length 1..3584 (R237, R262). -/
def imageWf (bytes : List Byte) : Bool :=
  decide (bytes.length ≠ 0) && decide (bytes.length ≤ Config.maxImage)

end Sys2Proof
end

