-- ==== Sys2Proof/Decode.lean ====
section
/-! DEFINITION. The decoder (R70 to R74, R77 to R79): fields, families, the total decoder on bytes, which
names what it does not match; then the encoder, written from the formats of R71, and the opcode map of
R77 as rows of mask and match. -/

namespace Sys2Proof

/-! ## Fields (R7, R71) -/

/-- The family digit, op[15:12] (R71). -/
def fieldFamily (w : Word) : Nibble := w.extractLsb' 12 4

/-- x = op[11:8] (R71). -/
def fieldX (w : Word) : Nibble := w.extractLsb' 8 4

/-- y = op[7:4] (R71). -/
def fieldY (w : Word) : Nibble := w.extractLsb' 4 4

/-- n = op[3:0] (R71). -/
def fieldN (w : Word) : Nibble := w.extractLsb' 0 4

/-- kk = op[7:0] (R71). -/
def fieldKK (w : Word) : Byte := w.extractLsb' 0 8

/-- nnn = op[11:0] (R71). -/
def fieldNNN (w : Word) : Addr12 := w.extractLsb' 0 12

/-! ## Decoding one word (R74, R77) -/

/-- Family 0: the two exact words CLS and RET; every other 0nnn is unmatched (R74, R79). -/
def decodeFamily0 (w : Word) : Option Instr :=
  if w = 0x00E0#16 then some .cls else if w = 0x00EE#16 then some .ret else none

/-- Family 8: nine operations selected by n (R74, R77). -/
def decodeFamily8 (x y n : Nibble) : Option Instr :=
  match n.toNat with
  | 0x0 => some (.ldReg x y)
  | 0x1 => some (.orReg x y)
  | 0x2 => some (.andReg x y)
  | 0x3 => some (.xorReg x y)
  | 0x4 => some (.addReg x y)
  | 0x5 => some (.subReg x y)
  | 0x6 => some (.shr x y)
  | 0x7 => some (.subnReg x y)
  | 0xE => some (.shl x y)
  | _ => none

/-- Family E: two key skips selected by kk (R74, R77). -/
def decodeFamilyE (x : Nibble) (kk : Byte) : Option Instr :=
  if kk = 0x9E#8 then some (.skp x) else if kk = 0xA1#8 then some (.sknp x) else none

/-- Family F: nine operations selected by kk (R74, R77). -/
def decodeFamilyF (x : Nibble) (kk : Byte) : Option Instr :=
  if kk = 0x07#8 then some (.ldVxDT x)
  else if kk = 0x0A#8 then some (.ldVxK x)
  else if kk = 0x15#8 then some (.ldDTVx x)
  else if kk = 0x18#8 then some (.ldSTVx x)
  else if kk = 0x1E#8 then some (.addI x)
  else if kk = 0x29#8 then some (.ldF x)
  else if kk = 0x33#8 then some (.ldB x)
  else if kk = 0x55#8 then some (.storeRegs x)
  else if kk = 0x65#8 then some (.loadRegs x)
  else none

/-- The instruction a word selects, by family and, where needed, by low byte or low nibble; none for an
unmatched opcode (R74, R77, R78). -/
def decodeWord (w : Word) : Option Instr :=
  match (fieldFamily w).toNat with
  | 0x0 => decodeFamily0 w
  | 0x1 => some (.jp (fieldNNN w))
  | 0x2 => some (.call (fieldNNN w))
  | 0x3 => some (.seByte (fieldX w) (fieldKK w))
  | 0x4 => some (.sneByte (fieldX w) (fieldKK w))
  | 0x5 => if fieldN w = 0#4 then some (.seReg (fieldX w) (fieldY w)) else none
  | 0x6 => some (.ldByte (fieldX w) (fieldKK w))
  | 0x7 => some (.addByte (fieldX w) (fieldKK w))
  | 0x8 => decodeFamily8 (fieldX w) (fieldY w) (fieldN w)
  | 0x9 => if fieldN w = 0#4 then some (.sneReg (fieldX w) (fieldY w)) else none
  | 0xA => some (.ldI (fieldNNN w))
  | 0xB => some (.jpV0 (fieldNNN w))
  | 0xC => some (.rnd (fieldX w) (fieldKK w))
  | 0xD => some (.drw (fieldX w) (fieldY w) (fieldN w))
  | 0xE => decodeFamilyE (fieldX w) (fieldKK w)
  | 0xF => decodeFamilyF (fieldX w) (fieldKK w)
  | _ => none

/-! ## Decoding bytes -/

/-- What the decoder answers on a sequence of bytes. -/
inductive Decoded where
  /-- The first two bytes are this instruction's word; the rest follows it. -/
  | instr (i : Instr) (rest : List Byte)
  /-- The first two bytes are an unmatched opcode (R78): a no-op of the machine, no instruction. -/
  | unmatched (op : Word)
  /-- Fewer than the two bytes every instruction has (R70). -/
  | truncated
  deriving DecidableEq, Repr

/-- The word two bytes make: big-endian, the byte at the lower address is op[15:8] (R8, R55). -/
def wordOfBytes (hi lo : Byte) : Word := hi ++ lo

/-- The decoder, total on any bytes (R55, R70, R74). -/
def decode : List Byte → Decoded
  | hi :: lo :: rest =>
    match decodeWord (wordOfBytes hi lo) with
    | some i => .instr i rest
    | none => .unmatched (wordOfBytes hi lo)
  | _ => .truncated

/-! ## Encoding (R71, R77) -/

/-- Format A12: `ffff aaaa aaaa aaaa`. -/
def fmtA12 (f : Nibble) (nnn : Addr12) : Word := f ++ nnn

/-- Formats XKK and XS: `ffff xxxx kkkk kkkk`. -/
def fmtXKK (f x : Nibble) (kk : Byte) : Word := f ++ x ++ kk

/-- Formats XYN and XYS: `ffff xxxx yyyy nnnn`. -/
def fmtXYN (f x y n : Nibble) : Word := f ++ x ++ y ++ n

/-- The word of an instruction (R71, R77). -/
def encode : Instr → Word
  | .cls => 0x00E0#16
  | .ret => 0x00EE#16
  | .jp nnn => fmtA12 0x1#4 nnn
  | .call nnn => fmtA12 0x2#4 nnn
  | .seByte x kk => fmtXKK 0x3#4 x kk
  | .sneByte x kk => fmtXKK 0x4#4 x kk
  | .seReg x y => fmtXYN 0x5#4 x y 0x0#4
  | .ldByte x kk => fmtXKK 0x6#4 x kk
  | .addByte x kk => fmtXKK 0x7#4 x kk
  | .ldReg x y => fmtXYN 0x8#4 x y 0x0#4
  | .orReg x y => fmtXYN 0x8#4 x y 0x1#4
  | .andReg x y => fmtXYN 0x8#4 x y 0x2#4
  | .xorReg x y => fmtXYN 0x8#4 x y 0x3#4
  | .addReg x y => fmtXYN 0x8#4 x y 0x4#4
  | .subReg x y => fmtXYN 0x8#4 x y 0x5#4
  | .shr x y => fmtXYN 0x8#4 x y 0x6#4
  | .subnReg x y => fmtXYN 0x8#4 x y 0x7#4
  | .shl x y => fmtXYN 0x8#4 x y 0xE#4
  | .sneReg x y => fmtXYN 0x9#4 x y 0x0#4
  | .ldI nnn => fmtA12 0xA#4 nnn
  | .jpV0 nnn => fmtA12 0xB#4 nnn
  | .rnd x kk => fmtXKK 0xC#4 x kk
  | .drw x y n => fmtXYN 0xD#4 x y n
  | .skp x => fmtXKK 0xE#4 x 0x9E#8
  | .sknp x => fmtXKK 0xE#4 x 0xA1#8
  | .ldVxDT x => fmtXKK 0xF#4 x 0x07#8
  | .ldVxK x => fmtXKK 0xF#4 x 0x0A#8
  | .ldDTVx x => fmtXKK 0xF#4 x 0x15#8
  | .ldSTVx x => fmtXKK 0xF#4 x 0x18#8
  | .addI x => fmtXKK 0xF#4 x 0x1E#8
  | .ldF x => fmtXKK 0xF#4 x 0x29#8
  | .ldB x => fmtXKK 0xF#4 x 0x33#8
  | .storeRegs x => fmtXKK 0xF#4 x 0x55#8
  | .loadRegs x => fmtXKK 0xF#4 x 0x65#8

/-- A word as the two bytes memory holds, the high byte at the lower address (R55). -/
def bytesOfWord (w : Word) : List Byte := [w.extractLsb' 8 8, w.extractLsb' 0 8]

/-! ## The opcode map as rows (R74, R77) -/

/-- One row of the opcode map: the fixed bits and their values. -/
structure OpcodeRow where
  mask : Word
  pattern : Word
  deriving DecidableEq, Repr

/-- A word matches a row when `(op & mask) == match` (R74). -/
def OpcodeRow.fits (r : OpcodeRow) (w : Word) : Bool := w &&& r.mask == r.pattern

/-- The row of R77 an instruction belongs to. -/
def Instr.row : Instr → OpcodeRow
  | .cls => ⟨0xFFFF#16, 0x00E0#16⟩
  | .ret => ⟨0xFFFF#16, 0x00EE#16⟩
  | .jp _ => ⟨0xF000#16, 0x1000#16⟩
  | .call _ => ⟨0xF000#16, 0x2000#16⟩
  | .seByte _ _ => ⟨0xF000#16, 0x3000#16⟩
  | .sneByte _ _ => ⟨0xF000#16, 0x4000#16⟩
  | .seReg _ _ => ⟨0xF00F#16, 0x5000#16⟩
  | .ldByte _ _ => ⟨0xF000#16, 0x6000#16⟩
  | .addByte _ _ => ⟨0xF000#16, 0x7000#16⟩
  | .ldReg _ _ => ⟨0xF00F#16, 0x8000#16⟩
  | .orReg _ _ => ⟨0xF00F#16, 0x8001#16⟩
  | .andReg _ _ => ⟨0xF00F#16, 0x8002#16⟩
  | .xorReg _ _ => ⟨0xF00F#16, 0x8003#16⟩
  | .addReg _ _ => ⟨0xF00F#16, 0x8004#16⟩
  | .subReg _ _ => ⟨0xF00F#16, 0x8005#16⟩
  | .shr _ _ => ⟨0xF00F#16, 0x8006#16⟩
  | .subnReg _ _ => ⟨0xF00F#16, 0x8007#16⟩
  | .shl _ _ => ⟨0xF00F#16, 0x800E#16⟩
  | .sneReg _ _ => ⟨0xF00F#16, 0x9000#16⟩
  | .ldI _ => ⟨0xF000#16, 0xA000#16⟩
  | .jpV0 _ => ⟨0xF000#16, 0xB000#16⟩
  | .rnd _ _ => ⟨0xF000#16, 0xC000#16⟩
  | .drw _ _ _ => ⟨0xF000#16, 0xD000#16⟩
  | .skp _ => ⟨0xF0FF#16, 0xE09E#16⟩
  | .sknp _ => ⟨0xF0FF#16, 0xE0A1#16⟩
  | .ldVxDT _ => ⟨0xF0FF#16, 0xF007#16⟩
  | .ldVxK _ => ⟨0xF0FF#16, 0xF00A#16⟩
  | .ldDTVx _ => ⟨0xF0FF#16, 0xF015#16⟩
  | .ldSTVx _ => ⟨0xF0FF#16, 0xF018#16⟩
  | .addI _ => ⟨0xF0FF#16, 0xF01E#16⟩
  | .ldF _ => ⟨0xF0FF#16, 0xF029#16⟩
  | .ldB _ => ⟨0xF0FF#16, 0xF033#16⟩
  | .storeRegs _ => ⟨0xF0FF#16, 0xF055#16⟩
  | .loadRegs _ => ⟨0xF0FF#16, 0xF065#16⟩

/-- The opcode map in the table's order, families 0 to 8 (R77). -/
def opcodeMapLow : List OpcodeRow :=
  [Instr.row .cls, Instr.row .ret, Instr.row (.jp 0), Instr.row (.call 0), Instr.row (.seByte 0 0),
   Instr.row (.sneByte 0 0), Instr.row (.seReg 0 0), Instr.row (.ldByte 0 0), Instr.row (.addByte 0 0)] ++
  [Instr.row (.ldReg 0 0), Instr.row (.orReg 0 0), Instr.row (.andReg 0 0), Instr.row (.xorReg 0 0),
   Instr.row (.addReg 0 0), Instr.row (.subReg 0 0), Instr.row (.shr 0 0), Instr.row (.subnReg 0 0),
   Instr.row (.shl 0 0)]

/-- The opcode map in the table's order, families 9 to F (R77). -/
def opcodeMapHigh : List OpcodeRow :=
  [Instr.row (.sneReg 0 0), Instr.row (.ldI 0), Instr.row (.jpV0 0), Instr.row (.rnd 0 0),
   Instr.row (.drw 0 0 0), Instr.row (.skp 0), Instr.row (.sknp 0)] ++
  [Instr.row (.ldVxDT 0), Instr.row (.ldVxK 0), Instr.row (.ldDTVx 0), Instr.row (.ldSTVx 0),
   Instr.row (.addI 0), Instr.row (.ldF 0), Instr.row (.ldB 0), Instr.row (.storeRegs 0),
   Instr.row (.loadRegs 0)]

/-- The 34 rows of the opcode map (R77). -/
def opcodeMap : List OpcodeRow := opcodeMapLow ++ opcodeMapHigh

/-! ## The host's view of the decoder -/

/-- The two bytes memory holds for an instruction whose bits, numbered as spec/opcode_table.json numbers
them, are w, where the table gives nbits of them; the bits above nbits are zero (R7, R55, R70). -/
def tableBytes (nbits w : Nat) : List Byte := bytesOfWord (BitVec.ofNat 16 (w % 2 ^ nbits))

/-- The instruction the decoder reads from those two bytes; none where it refuses them. -/
def decodeTableWord (nbits w : Nat) : Option Instr :=
  match decode (tableBytes nbits w) with
  | .instr i _ => some i
  | .unmatched _ => none
  | .truncated => none

end Sys2Proof
end

