-- ==== Sys2Proof/Machine/State.lean ====
section
/-! DEFINITION. The state of the core (R20), the ports of its interface (R237) as far as a step reads or
writes them, the fault conditions with what each records (R221), and the state right after reset (R38). -/

namespace Sys2Proof.Machine

/-- Memory as (address, byte) pairs, addresses strictly rising, no pair that repeats what an unlisted
address reads as (Machine/Memory.lean: background, Memory.wf). -/
abbrev Memory := List Host.Cell

/-- The six fault conditions of R221, each with the information it records: pc, the address of the
instruction; op, its word; addr, the lowest out-of-bounds address it would have touched; value, the key
index. The machine TAKES every one of them (R222): the meaning or the fetch answers a next state whose
RunState is Faulted, so no step of this model ends in the host's outcome `fault`. Safe: the model goes
on exactly as R222 says, with a state that runs nothing until a reset. -/
inductive Fault where
  /-- Code 1. Raised by 2nnn when SP = 64 (R103). Taken as a next state; safe. -/
  | stackOverflow (pc op : Word)
  /-- Code 2. Raised by 00EE when SP = 0 (R101). Taken as a next state; safe. -/
  | stackUnderflow (pc op : Word)
  /-- Code 3. Raised by the fetch of every step when PC > 0xFFE (R73). Taken as a next state; safe. -/
  | fetchOutOfBounds (pc : Word)
  /-- Code 4. Raised by Dxyn with n > 0 (R182) and Fx65 (R166) when their last address is above 0xFFF.
  Taken as a next state; safe. -/
  | readOutOfBounds (pc op : Word) (addr : Nat)
  /-- Code 5. Raised by Fx33 (R164) and Fx55 (R165) when their last address is above 0xFFF. Taken as a
  next state; safe. -/
  | writeOutOfBounds (pc op : Word) (addr : Nat)
  /-- Code 6. Raised by Ex9E (R200) and ExA1 (R201) when Vx > 15. Taken as a next state; safe. -/
  | keyIndexOutOfRange (pc op : Word) (value : Byte)
  deriving DecidableEq, Repr

/-- Why the model would give an instruction no meaning. -/
inductive Refusal where
  /-- An arm of exec whose instruction has no meaning yet; no arm is left in this state. Safe: nothing can
  be proved of a step that ends so. -/
  | notModelled (mnemonic : String)
  deriving DecidableEq, Repr

/-- The engine's run state (R35). -/
inductive RunState where
  /-- The engine performs cycles. -/
  | running
  /-- The host's stop request was honoured (R238). -/
  | stopped
  /-- A fault halted the engine, with its code and information (R222). -/
  | faulted (f : Fault)
  deriving DecidableEq, Repr

/-- The outcome port: the result of a step (R76, R237). -/
inductive StepOutcome where
  /-- The instruction completed, an unmatched opcode included. -/
  | advanced
  /-- Fx0A found no key pressed and changed nothing. -/
  | waitingForKey
  /-- A fault was raised. -/
  | faulted (f : Fault)
  deriving DecidableEq, Repr

/-- The event outputs of the core (R237). -/
inductive Output where
  /-- The sound-expiry pulse (R236). -/
  | beep
  /-- A copy of all 2048 cells, handed to the host (R235). -/
  | redraw (frame : Vector (BitVec 64) 32)
  /-- The result of the load port: true for Ok, false for Fail (R262). -/
  | loadResult (ok : Bool)
  deriving DecidableEq, Repr

/-- What the host can do between two cycles (R237, R242). -/
inductive HostEvent where
  /-- setKeyPressed(index, pressed) (R233). -/
  | key (index : Nibble) (pressed : Bool)
  /-- A stop request (R238). -/
  | stop
  /-- A reset (R260). -/
  | reset
  /-- A program load (R262). -/
  | load (bytes : List Byte)
  deriving DecidableEq, Repr

/-- One turn of the host: the events between two cycles, in their order, and the tick count it gives the
cycle that follows (R240, R242). -/
structure HostTurn where
  events : List HostEvent
  ticks : Nat
  deriving DecidableEq, Repr

/-- The state. The first twelve fields are the record of R20; stopPending is the latch of R238; the rest
are the ports of R237 and the model's own fields, which no instruction but Cxkk's draw reads. -/
structure State where
  /-- Mem[0..4095] (R50). -/
  mem : Memory
  /-- V0..VF (R21). -/
  v : Vector Byte 16
  /-- The address register I (R25). -/
  i : Word
  /-- The program counter (R24). -/
  pc : Word
  /-- SP, the number of call-stack entries in use, 0..64 (R27). -/
  sp : Fin 65
  /-- Stack[0..63] (R27). -/
  stack : Vector Word 64
  /-- The delay timer DT (R29). -/
  dt : Byte
  /-- The sound timer ST (R29). -/
  st : Byte
  /-- Disp[0..2047] as 32 rows of 64 columns: cell (x, y) is bit x of row y (R30). -/
  disp : Vector (BitVec 64) 32
  /-- The display changed since the last redraw (R31). -/
  dirty : Bool
  /-- The input latch: bit k is Keys[k], 1 for pressed (R32). -/
  keys : BitVec 16
  /-- RunState (R35). -/
  runState : RunState
  /-- A stop request is pending (R238). -/
  stopPending : Bool
  /-- The outcome port after the last step; none before the first (R76, R237). -/
  outcome : Option StepOutcome
  /-- The output events emitted so far, newest first (R235, R236, R262). -/
  outputs : List Output
  /-- MODEL'S OWN (R242): the host's turns still to come, the next one first. -/
  script : List HostTurn
  /-- MODEL'S OWN (R6, D10): the random bytes the host supplies, the next one first. -/
  rndSupply : List Byte
  /-- MODEL'S OWN (assumption 2): how many random bytes were drawn, the index of the next free one. -/
  draws : Nat
  /-- MODEL'S OWN (assumption 3): how many turns have passed, the index of the next free tick count. -/
  turns : Nat
  /-- MODEL'S OWN (R6, D11): the parameter FONT, which reset copies to memory and nothing changes. -/
  font : Vector Byte 80
  deriving DecidableEq, Repr

/-- What a meaning and a step of this machine answer. -/
abbrev Result := Host.Outcome State Fault Refusal

/-- The machine right after reset (R38), with the default font, which unlisted memory already reads as, an
empty host script and no random byte supplied (assumptions 2 to 6). -/
def State.reset : State where
  mem := []
  v := Vector.replicate 16 0
  i := 0
  pc := 0x200#16
  sp := 0
  stack := Vector.replicate 64 0
  dt := 0
  st := 0
  disp := Vector.replicate 32 0
  dirty := true
  keys := 0
  runState := .running
  stopPending := false
  outcome := none
  outputs := []
  script := []
  rndSupply := []
  draws := 0
  turns := 0
  font := Config.defaultFont

end Sys2Proof.Machine
end

