-- ==== Sys2Proof/Machine/Memory.lean ====
section
/-! DEFINITION. Memory: what an unlisted address reads as (the reset contents, R38), byte reads and
writes (R53, R54), their multi-byte forms in increasing address order (R58), and the canonical form. -/

namespace Sys2Proof.Machine

/-- What an unlisted address reads as: the default font at 0..79, zero elsewhere (R38, R51). -/
def background (a : Nat) : Byte :=
  if a < Config.fontSize then Config.defaultFont.toList.getD a 0 else 0

/-- MemRead(a, 1); the caller has checked that a is in bounds (R53). -/
def Memory.read : Memory → Nat → Byte
  | [], a => background a
  | (b, u) :: rest, a => if a = b then u else Memory.read rest a

/-- A pair for the front of the list, left out where it repeats what the address reads as unlisted. -/
def Memory.put (a : Nat) (val : Byte) (rest : Memory) : Memory :=
  if val = background a then rest else (a, val) :: rest

/-- MemWrite(a, 1, val); the caller has checked that a is in bounds (R54). Every write succeeds: there is
no write protection. -/
def Memory.write : Memory → Nat → Byte → Memory
  | [], a, val => Memory.put a val []
  | (b, u) :: rest, a, val =>
    if a < b then Memory.put a val ((b, u) :: rest)
    else if a = b then Memory.put a val rest
    else (b, u) :: Memory.write rest a val

/-- Bytes written from an address upward, in increasing address order (R58, R262). -/
def Memory.writeBytes : Memory → Nat → List Byte → Memory
  | m, _, [] => m
  | m, a, val :: rest => Memory.writeBytes (m.write a val) (a + 1) rest

/-- The canonical form above a lower bound: addresses rise strictly, all are in bounds, no pair repeats
what its address reads as unlisted. -/
def Memory.wfFrom : Nat → Memory → Bool
  | _, [] => true
  | lo, (a, val) :: rest =>
    decide (lo ≤ a) && decide (a ≤ Config.lastAddr) && decide (val ≠ background a) &&
      Memory.wfFrom (a + 1) rest

/-- The canonical form of memory: equal memories are equal lists. -/
def Memory.wf (m : Memory) : Bool := Memory.wfFrom 0 m

end Sys2Proof.Machine
end

