-- ==== Sys2Proof/Machine/Operands.lean ====
section
/-! DEFINITION. The operand forms: V registers (R21), the zero-extended address immediate (R72), the
register-indirect range at I with its bounds check (R52, R160), the key index (R200, R201), and the
sprite cell of a pixel (R180, R182). -/

namespace Sys2Proof.Machine

/-- V[r] (R9, R21). -/
def State.readV (s : State) (r : Nibble) : Byte := s.v[r.toNat]

/-- V[r] <- val; none of the sixteen is hardwired (R21). -/
def State.writeV (s : State) (r : Nibble) (val : Byte) : State := { s with v := s.v.set r.toNat val }

/-- VF's index (R22). -/
abbrev vf : Nibble := 0xF#4

/-- nnn in a 16-bit register (R72). -/
def addrWord (nnn : Addr12) : Word := nnn.setWidth 16

/-- A register value widened to 16 bits (R8: no sign extension). -/
def zextByte (b : Byte) : Word := b.setWidth 16

/-- The effective address I + k, on unbounded naturals (R52, R160). -/
def State.effAddr (s : State) (k : Nat) : Nat := s.i.toNat + k

/-- InBounds(a) (R10, R52). -/
def inBounds (a : Nat) : Bool := decide (a ≤ Config.lastAddr)

/-- The lowest out-of-bounds address of a transfer that starts at I: max(I, 0x1000) (R160). -/
def State.lowestOut (s : State) : Nat := max s.i.toNat Config.memSize

/-- A byte read through I (R160). -/
def State.readAtI (s : State) (k : Nat) : Byte := s.mem.read (s.effAddr k)

/-- Whether a register value is a key index, 0..15 (R200, R201, D8). -/
def isKeyIndex (b : Byte) : Bool := decide (b.toNat ≤ 15)

/-- Keys[k], from the one snapshot the step sees (R32, R62). -/
def State.keyDown (s : State) (b : Byte) : Bool := s.keys.getLsbD b.toNat

/-- The highest pressed key below k (R203). -/
def highestBelow (keys : BitVec 16) : Nat → Option Byte
  | 0 => none
  | k + 1 => if keys.getLsbD k then some (BitVec.ofNat 8 k) else highestBelow keys k

/-- The highest-indexed pressed key; none when no key is pressed (R203). -/
def highestKey (keys : BitVec 16) : Option Byte := highestBelow keys 16

/-- The cell index of column x and row y, each reduced modulo its range: they wrap (R30, R180). -/
def cellIndex (x y : Nat) : Nat := x % Config.columns + Config.columns * (y % Config.rows)

/-- Disp[c] (R9, R30): cell (x, y) is bit x of row y. -/
def dispCell (d : Vector (BitVec 64) 32) (c : Nat) : Bool :=
  (d.toList.getD (c / Config.columns) 0).getLsbD (c % Config.columns)

/-- V0 to V(n-1), the registers of a block store (R165). -/
def State.firstRegs (s : State) (n : Nat) : List Byte := s.v.toList.take n

end Sys2Proof.Machine
end

