-- ==== Sys2Proof/Machine/Flags.lean ====
section
/-! DEFINITION. The flags, all of them in VF (R22, R143): the carry of 8xy4, the no-borrow flags of 8xy5
and 8xy7, the shifted-out bits of 8xy6 and 8xyE, the collision flag of Dxyn; and the order of a result and
its flag (R130, D1). -/

namespace Sys2Proof.Machine

/-- A flag as the value VF takes. -/
def flagByte (b : Bool) : Byte := if b then 1 else 0

/-- Carry out of bit 7: the exact sum is 256 or more (R137). -/
def carryFlag (a b : Byte) : Byte := flagByte (decide (256 ≤ a.toNat + b.toNat))

/-- No borrow: the minuend is at least the subtrahend (R138, R140). -/
def noBorrowFlag (minuend subtrahend : Byte) : Byte :=
  flagByte (decide (subtrahend.toNat ≤ minuend.toNat))

/-- The bit a right shift by one moves out, bit 0 (R139). -/
def shiftedOutLow (a : Byte) : Byte := flagByte (a.getLsbD 0)

/-- The bit a left shift by one moves out, bit 7 (R141). -/
def shiftedOutHigh (a : Byte) : Byte := flagByte (a.getLsbD 7)

/-- Writes a result to Vx and then a flag to VF, so that VF keeps the flag when x = F (R22, R130, D1). -/
def State.writeResultFlag (s : State) (x : Nibble) (result flag : Byte) : State :=
  (s.writeV x result).writeV vf flag

end Sys2Proof.Machine
end

