-- ==== Sys2Proof/Machine/Ops.lean ====
section
/-! DEFINITION. The shared operations of the meanings: ending a step by advancing PC (R75), by a skip
(R105), by a jump (R100), by waiting (R203); TAKING A FAULT (R222), the one exception mechanism of this
core (no instruction returns from a fault: R224); the random draw (R142); the call stack (R27); and the
block load's register loop (R166). -/

namespace Sys2Proof.Machine

/-- The fault's number (R221). -/
def Fault.code : Fault → Nat
  | .stackOverflow _ _ => 1
  | .stackUnderflow _ _ => 2
  | .fetchOutOfBounds _ => 3
  | .readOutOfBounds _ _ _ => 4
  | .writeOutOfBounds _ _ _ => 5
  | .keyIndexOutOfRange _ _ _ => 6

/-- The step ends with PC at t, outcome Advanced; no target is checked (R75, R76, R100). -/
def State.jumpTo (s : State) (t : Word) : State := { s with pc := t, outcome := some .advanced }

/-- The default: PC <- PC + 2, modulo 2^16 (R75). -/
def State.advance (s : State) : State := s.jumpTo (s.pc + 2#16)

/-- A conditional skip: PC + 4 when the condition holds, PC + 2 when not (R105). -/
def State.skipIf (s : State) (c : Bool) : State := s.jumpTo (if c then s.pc + 4#16 else s.pc + 2#16)

/-- Fx0A with no key pressed: nothing changes but the outcome port (R36, R203). -/
def State.waitForKey (s : State) : State := { s with outcome := some .waitingForKey }

/-- TAKING A FAULT (R222): RunState <- Faulted(code, info), and nothing else changes; PC keeps the
faulting instruction's address and the outcome port says Faulted (R76). There is no handler. -/
def State.raiseFault (s : State) (f : Fault) : State :=
  { s with runState := .faulted f, outcome := some (.faulted f) }

/-- The step ends in the state t. -/
def done (t : State) : Result := .next t

/-- rnd(): the host's next byte, or a free one where it has supplied none (R6, R10, D10). -/
def State.randomByte (s : State) : Byte :=
  match s.rndSupply with
  | b :: _ => b
  | [] => Config.freeRandomByte s.draws

/-- One draw is used up (R142: each execution takes one fresh draw). -/
def State.afterDraw (s : State) : State :=
  { s with rndSupply := s.rndSupply.tail, draws := s.draws + 1 }

/-- Stack[SP] <- ret, then SP <- SP + 1; the caller has checked SP < 64 (R27, R103). -/
def State.push (s : State) (ret : Word) (h : s.sp.val < 64) : State :=
  { s with stack := s.stack.set s.sp.val ret, sp := ⟨s.sp.val + 1, Nat.succ_lt_succ h⟩ }

/-- SP <- SP - 1; the entry keeps its value (R27, R101). -/
def State.pop (s : State) : State :=
  { s with sp := ⟨s.sp.val - 1, Nat.lt_of_le_of_lt (Nat.sub_le _ _) s.sp.isLt⟩ }

/-- Stack[SP - 1], the entry a pop reads; the caller has checked SP > 0 (R27, R101). -/
def State.top (s : State) : Word := s.stack.toList.getD (s.sp.val - 1) 0

/-- V[k] <- Mem[I + k] for k = 0..n-1, in this order (R58, R166). -/
def State.loadFirst (s : State) : Nat → State
  | 0 => s
  | k + 1 => (s.loadFirst k).writeV (BitVec.ofNat 4 k) (s.readAtI k)

/-- The next value of I after a block transfer of n bytes, modulo 2^16 (R165, R166, D4). -/
def State.bumpI (s : State) (n : Nat) : State := { s with i := s.i + BitVec.ofNat 16 n }

end Sys2Proof.Machine
end

