-- ==== Sys2Proof/Machine/AddressMemory.lean ====
section
/-! DEFINITION. Address register and memory instructions (R160 to R166). A transfer checks its whole
range before it writes anything; a faulting instruction does not advance PC. -/

namespace Sys2Proof.Machine

/-- Annn, LD I, nnn (R161). -/
def execLdI (nnn : Addr12) (s : State) : Result := done { s with i := addrWord nnn }.advance

/-- Fx1E, ADD I, Vx: modulo 2^16, no flag (R162). -/
def execAddI (x : Nibble) (s : State) : Result :=
  done { s with i := s.i + zextByte (s.readV x) }.advance

/-- Fx29, LD F, Vx: Vx is not reduced to its low nibble (R163). -/
def execLdF (x : Nibble) (s : State) : Result :=
  done { s with i := zextByte (s.readV x) * 5#16 }.advance

/-- The decimal digits of a byte: hundreds, tens, units (R164). -/
def decimalDigits (b : Byte) : List Byte :=
  [BitVec.ofNat 8 (b.toNat / 100), BitVec.ofNat 8 (b.toNat / 10 % 10), BitVec.ofNat 8 (b.toNat % 10)]

/-- A store of bytes at I, I + 1, ... in increasing address order (R58, R164, R165). -/
def State.storeAtI (s : State) (bytes : List Byte) : State :=
  { s with mem := s.mem.writeBytes s.i.toNat bytes }

/-- Fx33, LD B, Vx: I is unchanged (R164). -/
def execLdB (x : Nibble) (s : State) : Result :=
  if inBounds (s.effAddr 2) then done (s.storeAtI (decimalDigits (s.readV x))).advance
  else done (s.raiseFault (.writeOutOfBounds s.pc (encode (.ldB x)) s.lowestOut))

/-- Fx55, LD [I], Vx: stores V0..Vx, then I <- I + x + 1 (R165). -/
def execStoreRegs (x : Nibble) (s : State) : Result :=
  if inBounds (s.effAddr x.toNat) then
    done ((s.storeAtI (s.firstRegs (x.toNat + 1))).bumpI (x.toNat + 1)).advance
  else done (s.raiseFault (.writeOutOfBounds s.pc (encode (.storeRegs x)) s.lowestOut))

/-- Fx65, LD Vx, [I]: loads V0..Vx, then I <- I + x + 1 (R166). -/
def execLoadRegs (x : Nibble) (s : State) : Result :=
  if inBounds (s.effAddr x.toNat) then
    done ((s.loadFirst (x.toNat + 1)).bumpI (x.toNat + 1)).advance
  else done (s.raiseFault (.readOutOfBounds s.pc (encode (.loadRegs x)) s.lowestOut))

end Sys2Proof.Machine
end

