-- ==== Sys2Proof/Machine/Alu.lean ====
section
/-! DEFINITION. Register loads and the ALU (R130 to R143). Operands are read from the state at the start
of the instruction; where there is a flag it is written last. Every meaning ends with PC + 2 (R75). -/

namespace Sys2Proof.Machine

/-- 6xkk, LD Vx, kk (R131). -/
def execLdByte (x : Nibble) (kk : Byte) (s : State) : Result := done (s.writeV x kk).advance

/-- 7xkk, ADD Vx, kk: no flag (R132). -/
def execAddByte (x : Nibble) (kk : Byte) (s : State) : Result :=
  done (s.writeV x (s.readV x + kk)).advance

/-- 8xy0, LD Vx, Vy (R133). -/
def execLdReg (x y : Nibble) (s : State) : Result := done (s.writeV x (s.readV y)).advance

/-- 8xy1, OR Vx, Vy: no flag (R134). -/
def execOrReg (x y : Nibble) (s : State) : Result :=
  done (s.writeV x (s.readV x ||| s.readV y)).advance

/-- 8xy2, AND Vx, Vy: no flag (R135). -/
def execAndReg (x y : Nibble) (s : State) : Result :=
  done (s.writeV x (s.readV x &&& s.readV y)).advance

/-- 8xy3, XOR Vx, Vy: no flag (R136). -/
def execXorReg (x y : Nibble) (s : State) : Result :=
  done (s.writeV x (s.readV x ^^^ s.readV y)).advance

/-- 8xy4, ADD Vx, Vy: VF is the carry (R137). -/
def execAddReg (x y : Nibble) (s : State) : Result :=
  done (s.writeResultFlag x (s.readV x + s.readV y) (carryFlag (s.readV x) (s.readV y))).advance

/-- 8xy5, SUB Vx, Vy: VF is the no-borrow flag (R138). -/
def execSubReg (x y : Nibble) (s : State) : Result :=
  done (s.writeResultFlag x (s.readV x - s.readV y) (noBorrowFlag (s.readV x) (s.readV y))).advance

/-- 8xy6, SHR Vx: VF is the bit shifted out; Vy is not read (R139). -/
def execShr (x _y : Nibble) (s : State) : Result :=
  done (s.writeResultFlag x (s.readV x >>> 1) (shiftedOutLow (s.readV x))).advance

/-- 8xy7, SUBN Vx, Vy: VF is the no-borrow flag (R140). -/
def execSubnReg (x y : Nibble) (s : State) : Result :=
  done (s.writeResultFlag x (s.readV y - s.readV x) (noBorrowFlag (s.readV y) (s.readV x))).advance

/-- 8xyE, SHL Vx: VF is the bit shifted out; Vy is not read (R141). -/
def execShl (x _y : Nibble) (s : State) : Result :=
  done (s.writeResultFlag x (s.readV x <<< 1) (shiftedOutHigh (s.readV x))).advance

/-- Cxkk, RND Vx, kk: one fresh draw, masked by kk (R142). -/
def execRnd (x : Nibble) (kk : Byte) (s : State) : Result :=
  done (s.afterDraw.writeV x (s.randomByte &&& kk)).advance

end Sys2Proof.Machine
end

