-- ==== Sys2Proof/Machine/Control.lean ====
section
/-! DEFINITION. Control transfer (R100 to R110) and the unmatched opcode (R78). -/

namespace Sys2Proof.Machine

/-- An unmatched opcode: PC <- PC + 2 and nothing else (R78). -/
def execUnmatched (s : State) : Result := done s.advance

/-- 00EE, RET (R101). -/
def execRet (s : State) : Result :=
  if s.sp.val = 0 then done (s.raiseFault (.stackUnderflow s.pc (encode .ret)))
  else done (s.pop.jumpTo s.top)

/-- 1nnn, JP nnn (R102). -/
def execJp (nnn : Addr12) (s : State) : Result := done (s.jumpTo (addrWord nnn))

/-- 2nnn, CALL nnn (R103). -/
def execCall (nnn : Addr12) (s : State) : Result :=
  if h : s.sp.val < Config.stackDepth then done ((s.push (s.pc + 2#16) h).jumpTo (addrWord nnn))
  else done (s.raiseFault (.stackOverflow s.pc (encode (.call nnn))))

/-- 3xkk, SE Vx, kk (R106). -/
def execSeByte (x : Nibble) (kk : Byte) (s : State) : Result := done (s.skipIf (s.readV x == kk))

/-- 4xkk, SNE Vx, kk (R107). -/
def execSneByte (x : Nibble) (kk : Byte) (s : State) : Result := done (s.skipIf (s.readV x != kk))

/-- 5xy0, SE Vx, Vy (R108). -/
def execSeReg (x y : Nibble) (s : State) : Result := done (s.skipIf (s.readV x == s.readV y))

/-- 9xy0, SNE Vx, Vy (R109). -/
def execSneReg (x y : Nibble) (s : State) : Result := done (s.skipIf (s.readV x != s.readV y))

/-- Bnnn, JP V0, nnn: the sum is not reduced modulo 4096 (R110). -/
def execJpV0 (nnn : Addr12) (s : State) : Result :=
  done (s.jumpTo (addrWord nnn + zextByte (s.readV 0x0#4)))

end Sys2Proof.Machine
end

