-- ==== Sys2Proof/Machine/Display.lean ====
section
/-! DEFINITION. The display buffer controller (R180 to R184): clear, and XOR-draw with collision. -/

namespace Sys2Proof.Machine

/-- What a draw works on: the buffer, and whether a pixel was turned off, or changed, so far (R182). -/
structure Canvas where
  disp : Vector (BitVec 64) 32
  collision : Bool
  changed : Bool
  deriving DecidableEq, Repr

/-- Disp[c] <- Disp[c] ^ 1 for a cell index c in 0..2047 (R182). -/
def flipDisp (d : Vector (BitVec 64) 32) (c : Nat) : Vector (BitVec 64) 32 :=
  d.setIfInBounds (c / Config.columns)
    (d.toList.getD (c / Config.columns) 0 ^^^ BitVec.twoPow 64 (c % Config.columns))

/-- One set sprite bit: the collision test, then the flip (R182). -/
def Canvas.hit (k : Canvas) (c : Nat) : Canvas :=
  { disp := flipDisp k.disp c, collision := k.collision || dispCell k.disp c, changed := true }

/-- One column of one sprite row: column col is bit 7 - col of the sprite byte (R182). -/
def Canvas.pixel (x0 y : Nat) (sprite : Byte) (k : Canvas) (col : Nat) : Canvas :=
  if sprite.getLsbD (7 - col) then k.hit (cellIndex (x0 + col) y) else k

/-- One sprite row, columns 0 to 7 (R182). -/
def Canvas.row (x0 y : Nat) (sprite : Byte) (k : Canvas) : Canvas :=
  (List.range 8).foldl (Canvas.pixel x0 y sprite) k

/-- Sprite rows 0 to n-1, the bytes read from I upward (R182). -/
def Canvas.draw (s : State) (x0 y0 : Nat) (k : Canvas) (n : Nat) : Canvas :=
  (List.range n).foldl (fun k row => Canvas.row x0 (y0 + row) (s.readAtI row) k) k

/-- The canvas after a whole draw at (V[x], V[y]) of height n, the coordinates read before VF is written
(R182). -/
def State.drawn (s : State) (x y n : Nibble) : Canvas :=
  Canvas.draw s (s.readV x).toNat (s.readV y).toNat ⟨s.disp, false, false⟩ n.toNat

/-- Whether the sprite's bytes are all in bounds; a draw of height 0 reads none (R182, D26). -/
def State.spriteInBounds (s : State) (n : Nibble) : Bool :=
  decide (n.toNat = 0) || inBounds (s.effAddr (n.toNat - 1))

/-- The state takes the canvas: Dirty is set when a cell changed, VF is always written (R182). -/
def State.takeCanvas (s : State) (k : Canvas) : State :=
  { s with disp := k.disp, dirty := s.dirty || k.changed }.writeV vf (flagByte k.collision)

/-- 00E0, CLS: Dirty is set even when the buffer was already off (R181). -/
def execCls (s : State) : Result :=
  done { s with disp := Vector.replicate 32 0, dirty := true }.advance

/-- Dxyn, DRW Vx, Vy, n (R182). -/
def execDrw (x y n : Nibble) (s : State) : Result :=
  if s.spriteInBounds n then done (s.takeCanvas (s.drawn x y n)).advance
  else done (s.raiseFault (.readOutOfBounds s.pc (encode (.drw x y n)) s.lowestOut))

end Sys2Proof.Machine
end

