-- ==== Sys2Proof/Machine/KeysTimers.lean ====
section
/-! DEFINITION. Key and timer instructions (R200 to R205). -/

namespace Sys2Proof.Machine

/-- Ex9E, SKP Vx: skip if key Vx is pressed; Vx > 15 faults (R200). -/
def execSkp (x : Nibble) (s : State) : Result :=
  if isKeyIndex (s.readV x) then done (s.skipIf (s.keyDown (s.readV x)))
  else done (s.raiseFault (.keyIndexOutOfRange s.pc (encode (.skp x)) (s.readV x)))

/-- ExA1, SKNP Vx: skip if key Vx is not pressed; Vx > 15 faults (R201). -/
def execSknp (x : Nibble) (s : State) : Result :=
  if isKeyIndex (s.readV x) then done (s.skipIf (!s.keyDown (s.readV x)))
  else done (s.raiseFault (.keyIndexOutOfRange s.pc (encode (.sknp x)) (s.readV x)))

/-- Fx07, LD Vx, DT (R202). -/
def execLdVxDT (x : Nibble) (s : State) : Result := done (s.writeV x s.dt).advance

/-- Fx0A, LD Vx, K: waits while no key is pressed, else takes the highest-indexed one (R203). -/
def execLdVxK (x : Nibble) (s : State) : Result :=
  match highestKey s.keys with
  | none => done s.waitForKey
  | some k => done (s.writeV x k).advance

/-- Fx15, LD DT, Vx (R204). -/
def execLdDTVx (x : Nibble) (s : State) : Result := done { s with dt := s.readV x }.advance

/-- Fx18, LD ST, Vx: no beep, whatever is written (R205, R231). -/
def execLdSTVx (x : Nibble) (s : State) : Result := done { s with st := s.readV x }.advance

end Sys2Proof.Machine
end

