-- ==== Sys2Proof/Machine/HostPorts.lean ====
section
/-! DEFINITION. What the host does to the core between cycles (R237, R242): key events (R233), the stop
request (R238), reset (R260) and load (R262); and the core's timer and display outputs: the tick with its
beep (R230, R231), the redraw (R235). -/

namespace Sys2Proof.Machine

/-- An output event is emitted (R237). -/
def State.emit (s : State) (o : Output) : State := { s with outputs := o :: s.outputs }

/-- Keys[index] <- pressed, one indivisible write (R233). -/
def setKeyBit (keys : BitVec 16) (index : Nibble) (pressed : Bool) : BitVec 16 :=
  if pressed then keys ||| BitVec.twoPow 16 index.toNat else keys &&& ~~~BitVec.twoPow 16 index.toNat

/-- The key event: it happens in any run state and does nothing else (R233). -/
def State.keyEvent (s : State) (index : Nibble) (pressed : Bool) : State :=
  { s with keys := setKeyBit s.keys index pressed }

/-- The stop request is latched (R238). -/
def State.requestStop (s : State) : State := { s with stopPending := true }

/-- Reset (R260): the table of R38 with this machine's FONT at 0..79; it clears a pending stop request
and emits no beep. The outcome port goes back to none (assumption 6); the events emitted so far and the
host's coming turns are no state of the core and stay. -/
def State.resetCore (s : State) : State :=
  { s with
    mem := Memory.writeBytes [] 0 s.font.toList
    v := Vector.replicate 16 0
    i := 0
    pc := 0x200#16
    sp := 0
    stack := Vector.replicate 64 0
    dt := 0
    st := 0
    disp := Vector.replicate 32 0
    dirty := true
    keys := 0
    runState := .running
    stopPending := false
    outcome := none }

/-- Load (R262): an empty or oversize image fails and changes no state; any other resets the core and is
copied to 0x200 onward. The result goes to the host. -/
def State.loadImage (s : State) (bytes : List Byte) : State :=
  if imageWf bytes then
    let t := s.resetCore
    { t with mem := t.mem.writeBytes Config.loadBase bytes }.emit (.loadResult true)
  else s.emit (.loadResult false)

/-- One host event (R237). -/
def State.hostEvent (s : State) : HostEvent → State
  | .key index pressed => s.keyEvent index pressed
  | .stop => s.requestStop
  | .reset => s.resetCore
  | .load bytes => s.loadImage bytes

/-- The host events between two cycles, in their order (R240, R242). -/
def State.hostEvents (s : State) (events : List HostEvent) : State := events.foldl State.hostEvent s

/-- The sound timer's half of a tick: one beep for the 1 -> 0 transition (R230, R231). -/
def State.tickSound (s : State) : State :=
  if s.st = 0 then s
  else if s.st = 1 then { s with st := 0 }.emit .beep
  else { s with st := s.st - 1 }

/-- The delay timer's half of a tick (R230). -/
def State.tickDelay (s : State) : State := if s.dt = 0 then s else { s with dt := s.dt - 1 }

/-- One timer tick (R230). -/
def State.tick (s : State) : State := s.tickDelay.tickSound

/-- k timer ticks, one after another (R230, R240). -/
def State.tickMany (s : State) : Nat → State
  | 0 => s
  | k + 1 => s.tick.tickMany k

/-- The tick point of a cycle (R240 step b). Both counters at zero stay at zero whatever k is, so the
count is not looked at then; Laws/Ports.lean proves this equal to tickMany. -/
def State.tickPoint (s : State) (k : Nat) : State :=
  if s.dt = 0 ∧ s.st = 0 then s else s.tickMany k

/-- The redraw point (R235, R240 step c). -/
def State.redrawPoint (s : State) : State :=
  if s.dirty then { s with dirty := false }.emit (.redraw s.disp) else s

/-- The stop point (R238, R240 step d): a pending request is consumed. -/
def State.stopPoint (s : State) : State :=
  if s.stopPending then { s with runState := .stopped, stopPending := false } else s

end Sys2Proof.Machine
end

