-- ==== Sys2Proof/Machine/Cycle.lean ====
section
/-! DEFINITION. The parts of one cycle (R240): the host's turn before it, the fetch (R73), the
instruction step (R74 to R78), and the points that follow the step. -/

namespace Sys2Proof.Machine

/-- The 16-bit word at an address and the one above it, big-endian (R55). -/
def Memory.word (m : Memory) (a : Nat) : Word := wordOfBytes (m.read a) (m.read (a + 1))

/-- Fetch(PC): the two bytes at PC, or none when PC > 0xFFE (R73). -/
def State.fetch (s : State) : Option (List Byte) :=
  if s.pc.toNat ≤ Config.lastFetch then some [s.mem.read s.pc.toNat, s.mem.read (s.pc.toNat + 1)]
  else none

/-- The instruction step (R73 to R78). The fetch fault is tested first (R223). -/
def runInstruction (s : State) : Result :=
  match s.fetch with
  | none => done (s.raiseFault (.fetchOutOfBounds s.pc))
  | some bytes =>
    match decode bytes with
    | .instr i _ => exec i s
    | .unmatched _ => execUnmatched s
    | .truncated => execUnmatched s

/-- The host events of the turn before the coming cycle; none once the script is at its end. -/
def State.turnEvents (s : State) : List HostEvent :=
  match s.script with
  | t :: _ => t.events
  | [] => []

/-- The tick count of the coming cycle: the host's, or a free one once the script is at its end (R6, R232,
D17). -/
def State.turnTicks (s : State) : Nat :=
  match s.script with
  | t :: _ => t.ticks
  | [] => Config.freeTicks s.turns

/-- The host's turn is taken: its events happen, and it is used up (R240, R242). -/
def State.openTurn (s : State) : State :=
  { s with script := s.script.tail, turns := s.turns + 1 }.hostEvents s.turnEvents

/-- What follows the instruction step in a cycle with k ticks (R240): after a fault nothing, otherwise the
tick point, the redraw point and the stop point, in this order. -/
def State.endCycle (k : Nat) (t : State) : State :=
  match t.runState with
  | .running => ((t.tickPoint k).redrawPoint).stopPoint
  | .stopped => t
  | .faulted _ => t

/-- The end of a cycle on the instruction step's answer. -/
def closeCycle (k : Nat) : Result → Result
  | .next t => .next (t.endCycle k)
  | .fault f => .fault f
  | .refused r => .refused r

end Sys2Proof.Machine
end

