-- ==== Sys2Proof/Machine/Step.lean ====
section
/-! DEFINITION. One step: the host's turn, then, while the engine is Running, one cycle of R240. In
Stopped and Faulted no instruction is executed and no tick is taken (R35, R222, R238), but the host's
events are still accepted. -/

namespace Sys2Proof.Machine

/-- One step of the machine (R240). -/
def step (s : State) : Host.Outcome State Fault Refusal :=
  match s.openTurn.runState with
  | .running => closeCycle s.turnTicks (runInstruction s.openTurn)
  | .stopped => done s.openTurn
  | .faulted _ => done s.openTurn

/-- The host's turns with no event before the coming cycle. -/
def quietScript : List HostTurn → List HostTurn
  | [] => []
  | t :: rest => { t with events := [] } :: rest

/-- An instruction stored where the next step fetches it, at PC, or at 0x200 where PC is past the last
fetch address; the engine is Running and the host does nothing before the coming cycle. -/
def State.withFetchWord (s : State) (nbits w : Nat) : State :=
  let pc : Word := if s.pc.toNat ≤ Config.lastFetch then s.pc else 0x200#16
  { s with
    mem := s.mem.writeBytes pc.toNat (tableBytes nbits w)
    pc := pc
    runState := .running
    script := quietScript s.script }

end Sys2Proof.Machine
end

