-- ==== Sys2Proof/Safety.lean ====
section
/-! DEFINITION. What counts as a safe run, and the terms claims are stated in: the invariant every step
keeps, what an instruction leaves unchanged, and how a fault is taken. -/

namespace Sys2Proof.Machine

/-! ## Safe runs -/

/-- The engine has not been halted by a fault (R222). -/
def State.NotFaulted (s : State) : Prop := ∀ f, s.runState ≠ .faulted f

/-- No fault is taken in the first k steps. -/
def SafeFor : Nat → State → Prop
  | 0, s => s.NotFaulted
  | k + 1, s => s.NotFaulted ∧ ∀ t, step s = .next t → SafeFor k t

/-! ## The invariant -/

/-- What a recorded fault says of the state it halted, which R222 keeps as it was before the instruction:
pc is PC, op is the word at PC and one of the instructions R221 names, and the condition of R221 holds. -/
def FaultTruthful (s : State) : Fault → Prop
  | .stackOverflow pc op =>
    pc = s.pc ∧ op = s.mem.word s.pc.toNat ∧ fieldFamily op = 0x2#4 ∧ s.sp.val = Config.stackDepth
  | .stackUnderflow pc op =>
    pc = s.pc ∧ op = s.mem.word s.pc.toNat ∧ op = 0x00EE#16 ∧ s.sp.val = 0
  | .fetchOutOfBounds pc => pc = s.pc ∧ Config.lastFetch < s.pc.toNat
  | .readOutOfBounds pc op addr =>
    pc = s.pc ∧ op = s.mem.word s.pc.toNat ∧ addr = max s.i.toNat Config.memSize ∧
    ((fieldFamily op = 0xD#4 ∧ 0 < (fieldN op).toNat ∧
        Config.lastAddr < s.i.toNat + (fieldN op).toNat - 1) ∨
     (fieldFamily op = 0xF#4 ∧ fieldKK op = 0x65#8 ∧ Config.lastAddr < s.i.toNat + (fieldX op).toNat))
  | .writeOutOfBounds pc op addr =>
    pc = s.pc ∧ op = s.mem.word s.pc.toNat ∧ addr = max s.i.toNat Config.memSize ∧
    ((fieldFamily op = 0xF#4 ∧ fieldKK op = 0x33#8 ∧ Config.lastAddr < s.i.toNat + 2) ∨
     (fieldFamily op = 0xF#4 ∧ fieldKK op = 0x55#8 ∧ Config.lastAddr < s.i.toNat + (fieldX op).toNat))
  | .keyIndexOutOfRange pc op value =>
    pc = s.pc ∧ op = s.mem.word s.pc.toNat ∧
    fieldFamily op = 0xE#4 ∧ (fieldKK op = 0x9E#8 ∨ fieldKK op = 0xA1#8) ∧
    value = s.readV (fieldX op) ∧ 15 < value.toNat

/-- What holds of every state a run reaches: memory is canonical, PC never passes 0x10FE and no stack
entry 0x1000 (R101, R110), the run state and the outcome port name the same fault, and that fault is told
truthfully. -/
structure State.Inv (s : State) : Prop where
  memCanonical : s.mem.wf = true
  pcBound : s.pc.toNat ≤ 0x10FE
  stackBound : ∀ w ∈ s.stack.toList, w.toNat ≤ 0x1000
  faultOnPort : ∀ f, s.runState = .faulted f ↔ s.outcome = some (.faulted f)
  faultTold : ∀ f, s.runState = .faulted f → FaultTruthful s f

/-! ## Frames -/

/-- Every V register outside the listed ones is unchanged. -/
def KeepsRegs (s t : State) (written : List Nibble) : Prop :=
  ∀ r, r ∉ written → t.readV r = s.readV r

/-- Every byte of memory reads as before. -/
def KeepsMemory (s t : State) : Prop := ∀ a, t.mem.read a = s.mem.read a

/-- Every byte of memory outside the n bytes from a upward reads as before. -/
def KeepsMemoryOutside (s t : State) (a n : Nat) : Prop :=
  ∀ b, b < a ∨ a + n ≤ b → t.mem.read b = s.mem.read b

/-- PC is d past the instruction's address and the outcome is Advanced (R75, R76). -/
def AdvancedBy (s t : State) (d : Nat) : Prop :=
  t.pc.toNat = (s.pc.toNat + d) % 65536 ∧ t.outcome = some .advanced

/-- Only PC and the outcome port may differ. -/
def OnlyPc (s t : State) : Prop := t = { s with pc := t.pc, outcome := t.outcome } ∧ KeepsMemory s t

/-- Only the listed V registers, PC and the outcome port may differ. -/
def OnlyRegs (s t : State) (written : List Nibble) : Prop :=
  t = { s with v := t.v, pc := t.pc, outcome := t.outcome } ∧ KeepsRegs s t written ∧ KeepsMemory s t

/-- Only the register I, PC and the outcome port may differ. -/
def OnlyI (s t : State) : Prop :=
  t = { s with i := t.i, pc := t.pc, outcome := t.outcome } ∧ KeepsMemory s t

/-- A fault is taken as R222 says: RunState names it, the outcome port says so, nothing else changes. -/
def FaultTaken (s t : State) (f : Fault) : Prop :=
  t = { s with runState := .faulted f, outcome := some (.faulted f) }

/-- The instruction's word is w, and w decodes to it (R71, R77). -/
def WordIs (i : Instr) (w : Word) : Prop := encode i = w ∧ decodeWord w = some i

end Sys2Proof.Machine
end

