-- ==== Sys2Proof/Certificates/Slice0/Obligations.lean ====
section
/-! DEFINITION. The statements for the provers, from the numbered rules of the spec. First the terms some
of them share, then the statements: encoding, the step and the cycle, the ports, the instructions family
by family, rules over the whole machine, and the invariant. -/

open Sys2Proof Sys2Proof.Machine

namespace Sys2Proof.Claims

/-- The fault an instruction takes in a state, as the table of R221 tells it; none when it takes none. -/
def faultOf (i : Instr) (s : State) : Option Fault :=
  match i with
  | .call nnn => if s.sp.val = 64 then some (.stackOverflow s.pc (fmtA12 0x2#4 nnn)) else none
  | .ret => if s.sp.val = 0 then some (.stackUnderflow s.pc 0x00EE#16) else none
  | .drw x y n =>
    if 0 < n.toNat ∧ 0xFFF < s.i.toNat + n.toNat - 1 then
      some (.readOutOfBounds s.pc (fmtXYN 0xD#4 x y n) (max s.i.toNat 0x1000)) else none
  | .loadRegs x =>
    if 0xFFF < s.i.toNat + x.toNat then
      some (.readOutOfBounds s.pc (fmtXKK 0xF#4 x 0x65#8) (max s.i.toNat 0x1000)) else none
  | .ldB x =>
    if 0xFFF < s.i.toNat + 2 then
      some (.writeOutOfBounds s.pc (fmtXKK 0xF#4 x 0x33#8) (max s.i.toNat 0x1000)) else none
  | .storeRegs x =>
    if 0xFFF < s.i.toNat + x.toNat then
      some (.writeOutOfBounds s.pc (fmtXKK 0xF#4 x 0x55#8) (max s.i.toNat 0x1000)) else none
  | .skp x =>
    if 15 < (s.readV x).toNat then
      some (.keyIndexOutOfRange s.pc (fmtXKK 0xE#4 x 0x9E#8) (s.readV x)) else none
  | .sknp x =>
    if 15 < (s.readV x).toNat then
      some (.keyIndexOutOfRange s.pc (fmtXKK 0xE#4 x 0xA1#8) (s.readV x)) else none
  | _ => none

/-- The events of the coming turn neither reset the core nor load an image it accepts. -/
def NoResetComing (s : State) : Prop :=
  ∀ e ∈ s.turnEvents, e ≠ .reset ∧ ∀ bytes, e = .load bytes → imageWf bytes = false

/-- The instructions whose rule lets them change VF: the six flag writers, and every instruction that
names VF as its destination (R22). -/
def mayWriteVF : Instr → Prop
  | .addReg _ _ | .subReg _ _ | .shr _ _ | .subnReg _ _ | .shl _ _ | .drw _ _ _ => True
  | .ldByte x _ | .addByte x _ | .rnd x _ => x = 0xF#4
  | .ldReg x _ | .orReg x _ | .andReg x _ | .xorReg x _ => x = 0xF#4
  | .ldVxDT x | .ldVxK x | .loadRegs x => x = 0xF#4
  | _ => False

/-- PC of t is where an advancing step of i from s leaves it (R75): at the target of a jump, past the next
word where a skip's condition holds, else past the instruction. -/
def PcMoves (i : Instr) (s t : State) : Prop :=
  match i with
  | .jp nnn | .call nnn => t.pc.toNat = nnn.toNat
  | .jpV0 nnn => t.pc.toNat = nnn.toNat + (s.readV 0x0#4).toNat
  | .ret => ∃ h : 0 < s.sp.val, t.pc = s.stack[s.sp.val - 1]'(by omega)
  | .seByte x kk => t.pc = s.pc + (if s.readV x = kk then 4#16 else 2#16)
  | .sneByte x kk => t.pc = s.pc + (if s.readV x ≠ kk then 4#16 else 2#16)
  | .seReg x y => t.pc = s.pc + (if s.readV x = s.readV y then 4#16 else 2#16)
  | .sneReg x y => t.pc = s.pc + (if s.readV x ≠ s.readV y then 4#16 else 2#16)
  | .skp x => t.pc = s.pc + (if s.keys.getLsbD (s.readV x).toNat = true then 4#16 else 2#16)
  | .sknp x => t.pc = s.pc + (if s.keys.getLsbD (s.readV x).toNat = false then 4#16 else 2#16)
  | _ => t.pc = s.pc + 2#16

/-- The byte at address b once n bytes were stored from I upward, the k-th of them `stored k` (R58). -/
def byteAfterStore (s : State) (n : Nat) (stored : Nat → Byte) (b : Nat) : Byte :=
  if s.effAddr 0 ≤ b ∧ b < s.effAddr n then stored (b - s.effAddr 0) else s.mem.read b

/-- Every fetch from the memory of t, wherever PC is, reads the n bytes stored in s from I upward, and the
bytes of s elsewhere. -/
def FetchesSeeStore (s t : State) (n : Nat) (stored : Nat → Byte) : Prop :=
  ∀ u : State, u.mem = t.mem → u.pc.toNat ≤ 0xFFE →
    u.fetch = some [byteAfterStore s n stored u.pc.toNat, byteAfterStore s n stored (u.pc.toNat + 1)]

/-- A set sprite bit of the draw reaches the cell c (R182). -/
def SpriteHits (s : State) (x y n : Nibble) (c : Nat) : Prop :=
  ∃ row, row < n.toNat ∧ ∃ col, col < 8 ∧
    (s.mem.read (s.i.toNat + row)).getLsbD (7 - col) = true ∧
    c = ((s.readV x).toNat + col) % 64 + 64 * (((s.readV y).toNat + row) % 32)

/-- k steps from s end in u, SP is never below d after any of them, and no turn resets the core. -/
def RunAtDepth (d : Nat) : Nat → State → State → Prop
  | 0, s, u => u = s
  | k + 1, s, u => NoResetComing s ∧ ∃ t, step s = .next t ∧ d ≤ t.sp.val ∧ RunAtDepth d k t u

end Sys2Proof.Claims

open Sys2Proof.Claims

/-! ## Encoding -/

/-- Words written out from the formats of R71 decode to the instruction of their row in R77, one per
family, and two words of R79 to none. That 01E0 and 5121 match nothing is the spec's own choice D3, log
entry 12. -/
def Obligations.WordsOfTheSpecDecode : Prop :=
  decode [0x00, 0xE0] = .instr .cls [] ∧ decode [0x12, 0x28] = .instr (.jp 0x228) [] ∧
  decode [0x23, 0x00] = .instr (.call 0x300) [] ∧ decode [0x33, 0x10] = .instr (.seByte 3 0x10) [] ∧
  decode [0x43, 0x10] = .instr (.sneByte 3 0x10) [] ∧ decode [0x51, 0x20] = .instr (.seReg 1 2) [] ∧
  decode [0x6A, 0x42] = .instr (.ldByte 0xA 0x42) [] ∧ decode [0x71, 0x02] = .instr (.addByte 1 2) [] ∧
  decode [0x81, 0x27] = .instr (.subnReg 1 2) [] ∧ decode [0x91, 0x20] = .instr (.sneReg 1 2) [] ∧
  decode [0xA2, 0xF0] = .instr (.ldI 0x2F0) [] ∧ decode [0xBF, 0x01] = .instr (.jpV0 0xF01) [] ∧
  decode [0xC3, 0x0F] = .instr (.rnd 3 0x0F) [] ∧ decode [0xD0, 0x1F] = .instr (.drw 0 1 0xF) [] ∧
  decode [0xE2, 0xA1] = .instr (.sknp 2) [] ∧ decode [0xF2, 0x65] = .instr (.loadRegs 2) [] ∧
  decode [0x01, 0xE0] = .unmatched 0x01E0 ∧ decode [0x51, 0x21] = .unmatched 0x5121

/-- Decode and encode agree, for every instruction and every operand: no bit of an encoding is dropped
(R71, R74, R77). -/
def Obligations.DecodeOfEncodeIsTheInstruction : Prop :=
  ∀ (i : Instr) (rest : List Byte), decode (bytesOfWord (encode i) ++ rest) = .instr i rest

/-- Each word has one meaning: the word of the instruction it decodes to is the word itself (R74). It holds
because matching is strict, the spec's own choice D3, log entry 12; that the op a fault records is therefore
the fetched word is the model's inference, log entry 10. -/
def Obligations.EncodeOfDecodedWordIsTheWord : Prop :=
  ∀ (w : Word) (i : Instr), decodeWord w = some i → encode i = w

/-- R74: a word selects the instruction whose row it matches; at most one row matches; a word that
matches no row is unmatched. That the match is strict is the spec's own choice D3. -/
def Obligations.DecoderFollowsTheOpcodeMap : Prop :=
  ∀ w : Word,
    (∀ i, decodeWord w = some i → i.row ∈ opcodeMap ∧ i.row.fits w = true) ∧
    (decodeWord w = none ↔ ∀ r ∈ opcodeMap, r.fits w = false) ∧
    (∀ r ∈ opcodeMap, ∀ r' ∈ opcodeMap, r.fits w = true → r'.fits w = true → r = r')

/-- The unmatched space of R79, family by family; it follows from the spec's own choice D3. -/
def Obligations.UnmatchedWordsAreThoseOfTheTable : Prop :=
  ∀ w : Word, decodeWord w = none ↔
    (fieldFamily w = 0x0#4 ∧ w ≠ 0x00E0#16 ∧ w ≠ 0x00EE#16) ∨
    (fieldFamily w = 0x5#4 ∧ fieldN w ≠ 0#4) ∨
    (fieldFamily w = 0x8#4 ∧ fieldN w ∈ [0x8#4, 0x9#4, 0xA#4, 0xB#4, 0xC#4, 0xD#4, 0xF#4]) ∨
    (fieldFamily w = 0x9#4 ∧ fieldN w ≠ 0#4) ∨
    (fieldFamily w = 0xE#4 ∧ fieldKK w ∉ [0x9E#8, 0xA1#8]) ∨
    (fieldFamily w = 0xF#4 ∧
      fieldKK w ∉ [0x07#8, 0x0A#8, 0x15#8, 0x18#8, 0x1E#8, 0x29#8, 0x33#8, 0x55#8, 0x65#8])

/-! ## The step and the cycle -/

/-- When the bytes at PC decode to i, the step is exec of i on the state after the host's turn, followed by
the end of the cycle with the turn's tick count (R73, R74, R240). The points of the cycle are the spec's own
choices D7, D17, D19 and D20; that a step takes one host turn before the cycle is log entry 11, and that the
turn gives the tick count is log entry 3. -/
def Obligations.StepRunsTheDecodedInstruction : Prop :=
  ∀ (s : State) (i : Instr),
    s.openTurn.runState = .running → s.openTurn.pc.toNat ≤ 0xFFE →
    decode [s.openTurn.mem.read s.openTurn.pc.toNat, s.openTurn.mem.read (s.openTurn.pc.toNat + 1)] =
      .instr i [] →
    step s =
      match exec i s.openTurn with
      | .next t => .next (t.endCycle s.turnTicks)
      | .fault f => .fault f
      | .refused r => .refused r

/-- R73: the fetch faults past 0xFFE and changes nothing else (the spec's own choice D6); otherwise the word
is the byte at PC, high, and the byte at PC + 1, low. -/
def Obligations.FetchReadsABigEndianWordOrFaults : Prop :=
  ∀ s : State,
    (0xFFE < s.pc.toNat →
      s.fetch = none ∧ ∃ t, runInstruction s = .next t ∧ FaultTaken s t (.fetchOutOfBounds s.pc)) ∧
    (s.pc.toNat ≤ 0xFFE → ∃ hi lo,
      s.fetch = some [hi, lo] ∧ hi = s.mem.read s.pc.toNat ∧ lo = s.mem.read (s.pc.toNat + 1) ∧
      (s.mem.word s.pc.toNat).toNat = hi.toNat * 256 + lo.toNat)

/-- R78: an unmatched opcode only advances PC by 2. -/
def Obligations.UnmatchedOpcodeOnlyAdvances : Prop :=
  ∀ s : State, s.pc.toNat ≤ 0xFFE → decodeWord (s.mem.word s.pc.toNat) = none →
    ∃ t, runInstruction s = .next t ∧ AdvancedBy s t 2 ∧ OnlyPc s t

/-- R76: each step ends with exactly one of three outcomes, and what each of them leaves. The fault outcome
is the spec's own choice D7. -/
def Obligations.EachInstructionStepHasOneOfThreeOutcomes : Prop :=
  ∀ s : State, ∃ t, runInstruction s = .next t ∧
    ((t.outcome = some .advanced ∧ t.runState = s.runState) ∨
     (t.outcome = some .waitingForKey ∧ t = { s with outcome := some .waitingForKey } ∧
       s.keys = 0 ∧ ∃ x, decodeWord (s.mem.word s.pc.toNat) = some (.ldVxK x)) ∨
     (∃ f, FaultTaken s t f))

/-- Every step answers a next state: a fault is taken, not a stop of the model (R76, R222; that a fault is
a next state of the model is log entry 7). -/
def Obligations.EveryStepAnswersANextState : Prop := ∀ s : State, ∃ t, step s = .next t

/-- R235, R240: after an instruction that took no fault the cycle ticks, hands over the buffer if it is
dirty and honours a pending stop, in this order, and changes nothing else. The tick count, the time of the
beep and the stop point are the spec's own D17, D18 and D20; that the turn gives the count is log entry 3. -/
def Obligations.CycleTicksThenRedrawsThenStops : Prop :=
  ∀ s u : State, s.openTurn.runState = .running → runInstruction s.openTurn = .next u →
    u.runState = .running →
    ∃ t, step s = .next t ∧
      t.dt.toNat = u.dt.toNat - s.turnTicks ∧ t.st.toNat = u.st.toNat - s.turnTicks ∧
      t.outputs =
        (if u.dirty then [Output.redraw u.disp] else []) ++
        (if 0 < u.st.toNat ∧ u.st.toNat ≤ s.turnTicks then [Output.beep] else []) ++ u.outputs ∧
      t.dirty = false ∧ t.runState = (if u.stopPending then .stopped else .running) ∧
      t.stopPending = false ∧
      t = { u with
            dt := t.dt, st := t.st, outputs := t.outputs, dirty := false, runState := t.runState,
            stopPending := false }

/-- R222: a fault is precise and ends the cycle at once; a faulted engine executes nothing and takes no
tick; only a reset leaves the fault (an accepted load resets). These are the spec's own choices D6 and D7. -/
def Obligations.FaultIsPreciseAndHaltsUntilReset : Prop :=
  (∀ (s u : State) (f : Fault), s.openTurn.runState = .running →
    runInstruction s.openTurn = .next u → u.runState = .faulted f →
    step s = .next u ∧ FaultTaken s.openTurn u f) ∧
  (∀ (s : State) (f : Fault), s.runState = .faulted f → NoResetComing s →
    ∃ t, step s = .next t ∧ t.runState = .faulted f ∧
      t = { s with
            keys := t.keys, stopPending := t.stopPending, outputs := t.outputs,
            script := t.script, turns := t.turns }) ∧
  (∀ s : State, s.turnEvents = [.reset] → s.openTurn.runState = .running)

/-- R221: the six fault conditions, their codes, and what each records; no other instruction or state
faults. The codes and the key-index fault are the spec's own choices D7 and D8. -/
def Obligations.FaultsAreThoseOfTheTable : Prop :=
  (∀ (i : Instr) (s : State), ∃ t, exec i s = .next t ∧
    match faultOf i s with
    | some f => FaultTaken s t f
    | none => t.runState = s.runState) ∧
  (∀ s : State, 0xFFE < s.pc.toNat →
    ∃ t, runInstruction s = .next t ∧ FaultTaken s t (.fetchOutOfBounds s.pc)) ∧
  (∀ (pc op : Word) (addr : Nat) (value : Byte),
    Fault.code (.stackOverflow pc op) = 1 ∧ Fault.code (.stackUnderflow pc op) = 2 ∧
    Fault.code (.fetchOutOfBounds pc) = 3 ∧ Fault.code (.readOutOfBounds pc op addr) = 4 ∧
    Fault.code (.writeOutOfBounds pc op addr) = 5 ∧
    Fault.code (.keyIndexOutOfRange pc op value) = 6)

/-- In Stopped and Faulted the engine performs no instruction and no tick, and only a reset or an accepted
load returns it to Running (R35, R238; the spec's own choices D7 and D20). -/
def Obligations.HaltedEngineExecutesNothing : Prop :=
  (∀ s : State, s.runState ≠ .running → s.turnEvents = [] →
    step s = .next { s with script := s.script.tail, turns := s.turns + 1 }) ∧
  (∀ s : State, s.runState ≠ .running → NoResetComing s →
    ∃ t, step s = .next t ∧ t.runState = s.runState ∧ t.pc = s.pc ∧ t.dt = s.dt ∧ t.st = s.st)

/-! ## Timers and host ports -/

/-- R230: a tick decrements each counter that is not zero, beeps on the 1 -> 0 transition of ST, and does
nothing else; it happens only in Running. When a beep comes is the spec's own choice D18. -/
def Obligations.TickDecrementsBothCounters : Prop :=
  (∀ s : State,
    s.tick.dt.toNat = s.dt.toNat - 1 ∧ s.tick.st.toNat = s.st.toNat - 1 ∧
    s.tick.outputs = (if s.st.toNat = 1 then Output.beep :: s.outputs else s.outputs) ∧
    s.tick = { s with dt := s.tick.dt, st := s.tick.st, outputs := s.tick.outputs }) ∧
  (∀ s : State, s.openTurn.runState ≠ .running →
    ∃ t, step s = .next t ∧ t.dt = s.openTurn.dt ∧ t.st = s.openTurn.st ∧
      t.outputs = s.openTurn.outputs)

/-- R231: ST = k > 0 left alone for k ticks gives exactly one beep, at the k-th; no instruction and no
reset emits one (the spec's own choice D18). -/
def Obligations.ExactlyOneBeepPerExpiry : Prop :=
  (∀ (s : State) (k : Nat),
    (s.tickPoint k).st.toNat = s.st.toNat - k ∧ (s.tickPoint k).dt.toNat = s.dt.toNat - k ∧
    (s.tickPoint k).outputs =
      (if 0 < s.st.toNat ∧ s.st.toNat ≤ k then [Output.beep] else []) ++ s.outputs) ∧
  (∀ (i : Instr) (s : State), ∃ t, exec i s = .next t ∧ t.outputs = s.outputs) ∧
  (∀ s : State, (s.hostEvent .reset).outputs = s.outputs)

/-- R235: the redraw point hands over a copy of the buffer and clears Dirty when Dirty is set, and does
nothing when it is not. -/
def Obligations.RedrawPointHandsOverTheDirtyBuffer : Prop :=
  (∀ s : State, s.dirty = true →
    s.redrawPoint = { s with dirty := false, outputs := .redraw s.disp :: s.outputs }) ∧
  (∀ s : State, s.dirty = false → s.redrawPoint = s)

/-- R233: a key event writes one bit of the latch, in any run state, and nothing else (its atomicity is the
spec's own choice D21). -/
def Obligations.KeyEventWritesOneBit : Prop :=
  ∀ (s : State) (index : Nibble) (pressed : Bool),
    (∀ k, k < 16 →
      (s.hostEvent (.key index pressed)).keys.getLsbD k =
        if k = index.toNat then pressed else s.keys.getLsbD k) ∧
    s.hostEvent (.key index pressed) =
      { s with keys := (s.hostEvent (.key index pressed)).keys }

/-- R238: a stop request is latched, honoured at the end of the cycle and consumed; a stopped engine
executes nothing, accepts key events, keeps its state, and returns to Running only by reset. These are the
spec's own choices D20. -/
def Obligations.StopRequestIsHonouredAtTheEndOfTheCycle : Prop :=
  (∀ s : State, s.hostEvent .stop = { s with stopPending := true }) ∧
  (∀ s u : State, s.openTurn.runState = .running → runInstruction s.openTurn = .next u →
    u.runState = .running → u.stopPending = true →
    ∃ t, step s = .next t ∧ t.runState = .stopped ∧ t.stopPending = false) ∧
  (∀ s : State, s.runState = .stopped → NoResetComing s →
    ∃ t, step s = .next t ∧
      t = { s with
            keys := t.keys, stopPending := t.stopPending, outputs := t.outputs,
            script := t.script, turns := t.turns }) ∧
  (∀ (s : State) (index : Nibble) (pressed : Bool), s.runState = .stopped →
    s.turnEvents = [.key index pressed] →
    ∃ t, step s = .next t ∧ t.keys.getLsbD index.toNat = pressed) ∧
  (∀ s : State, s.turnEvents = [.reset] → s.openTurn.runState = .running)

/-- R260, R38: what a reset leaves, from any state and with any FONT. Dirty and RunState are the spec's own
choices D15 and D20; that the emitted events and FONT stay is the model's choice, log entry 4. -/
def Obligations.ResetEstablishesTheTable : Prop :=
  ∀ s : State, ∃ t, s.hostEvent .reset = t ∧
    (∀ a (h : a < 80), t.mem.read a = s.font[a]) ∧
    (∀ a, 80 ≤ a → a ≤ 0xFFF → t.mem.read a = 0) ∧
    (∀ r, t.readV r = 0) ∧ t.i = 0 ∧ t.pc = 0x200#16 ∧ t.sp.val = 0 ∧
    (∀ j (h : j < 64), t.stack[j] = 0) ∧ t.dt = 0 ∧ t.st = 0 ∧ (∀ c, dispCell t.disp c = false) ∧
    (∀ k, t.keys.getLsbD k = false) ∧ t.dirty = true ∧ t.runState = .running ∧
    t.stopPending = false ∧ t.outputs = s.outputs ∧ t.font = s.font

/-- R262: an empty or oversize image fails and changes no state (the result goes to the host); any other
resets the core and is copied to 0x200 onward. Rejecting is the spec's own choice D16. -/
def Obligations.LoadRejectsOrResetsAndCopies : Prop :=
  ∀ (s : State) (bytes : List Byte),
    (bytes.length = 0 ∨ 3584 < bytes.length →
      s.hostEvent (.load bytes) = { s with outputs := .loadResult false :: s.outputs }) ∧
    (0 < bytes.length → bytes.length ≤ 3584 → ∃ t, s.hostEvent (.load bytes) = t ∧
      t = { s.hostEvent .reset with mem := t.mem, outputs := .loadResult true :: s.outputs } ∧
      (∀ k (h : k < bytes.length), t.mem.read (0x200 + k) = bytes[k]) ∧
      (∀ a, a < 0x200 ∨ 0x200 + bytes.length ≤ a →
        t.mem.read a = (s.hostEvent .reset).mem.read a))

/-! ## Register loads and the ALU -/

/-- R131, R132, R133: the loads and the byte add, which touch no flag. -/
def Obligations.LoadsAndByteAddWriteOnlyVx : Prop :=
  ∀ (s : State) (x y : Nibble) (kk : Byte),
    (WordIs (.ldByte x kk) (fmtXKK 0x6#4 x kk) ∧
      ∃ t, exec (.ldByte x kk) s = .next t ∧ t.readV x = kk ∧ OnlyRegs s t [x] ∧ AdvancedBy s t 2) ∧
    (WordIs (.addByte x kk) (fmtXKK 0x7#4 x kk) ∧
      ∃ t, exec (.addByte x kk) s = .next t ∧
        (t.readV x).toNat = ((s.readV x).toNat + kk.toNat) % 256 ∧ OnlyRegs s t [x] ∧
        AdvancedBy s t 2) ∧
    (WordIs (.ldReg x y) (fmtXYN 0x8#4 x y 0x0#4) ∧
      ∃ t, exec (.ldReg x y) s = .next t ∧ t.readV x = s.readV y ∧ OnlyRegs s t [x] ∧
        AdvancedBy s t 2)

/-- R134, R135, R136: OR, AND and XOR bit by bit; VF is unchanged unless x = F (the spec's own choice D2). -/
def Obligations.LogicOperationsWriteOnlyVx : Prop :=
  ∀ (s : State) (x y : Nibble),
    (WordIs (.orReg x y) (fmtXYN 0x8#4 x y 0x1#4) ∧
      ∃ t, exec (.orReg x y) s = .next t ∧
        (∀ k, k < 8 → (t.readV x).getLsbD k = ((s.readV x).getLsbD k || (s.readV y).getLsbD k)) ∧
        OnlyRegs s t [x] ∧ AdvancedBy s t 2) ∧
    (WordIs (.andReg x y) (fmtXYN 0x8#4 x y 0x2#4) ∧
      ∃ t, exec (.andReg x y) s = .next t ∧
        (∀ k, k < 8 → (t.readV x).getLsbD k = ((s.readV x).getLsbD k && (s.readV y).getLsbD k)) ∧
        OnlyRegs s t [x] ∧ AdvancedBy s t 2) ∧
    (WordIs (.xorReg x y) (fmtXYN 0x8#4 x y 0x3#4) ∧
      ∃ t, exec (.xorReg x y) s = .next t ∧
        (∀ k, k < 8 → (t.readV x).getLsbD k = ((s.readV x).getLsbD k ^^ (s.readV y).getLsbD k)) ∧
        OnlyRegs s t [x] ∧ AdvancedBy s t 2)

/-- R137: the sum modulo 256, and VF the carry, written last: with x = F it is what VF keeps (the spec's
own choice D1). -/
def Obligations.AddWritesSumAndCarry : Prop :=
  ∀ (s : State) (x y : Nibble),
    WordIs (.addReg x y) (fmtXYN 0x8#4 x y 0x4#4) ∧
    ∃ t, exec (.addReg x y) s = .next t ∧
      (x ≠ 0xF#4 → (t.readV x).toNat = ((s.readV x).toNat + (s.readV y).toNat) % 256) ∧
      t.readV 0xF#4 = (if 256 ≤ (s.readV x).toNat + (s.readV y).toNat then 1 else 0) ∧
      OnlyRegs s t [x, 0xF#4] ∧ AdvancedBy s t 2

/-- R138, R140: the differences modulo 256, and VF the no-borrow flag, 1 on equality, written last (the
spec's own choice D1). -/
def Obligations.SubtractionsWriteDifferenceAndNoBorrow : Prop :=
  ∀ (s : State) (x y : Nibble),
    (WordIs (.subReg x y) (fmtXYN 0x8#4 x y 0x5#4) ∧
      ∃ t, exec (.subReg x y) s = .next t ∧
        (x ≠ 0xF#4 →
          ((t.readV x).toNat : Int) = ((s.readV x).toNat - (s.readV y).toNat : Int) % 256) ∧
        t.readV 0xF#4 = (if (s.readV y).toNat ≤ (s.readV x).toNat then 1 else 0) ∧
        OnlyRegs s t [x, 0xF#4] ∧ AdvancedBy s t 2) ∧
    (WordIs (.subnReg x y) (fmtXYN 0x8#4 x y 0x7#4) ∧
      ∃ t, exec (.subnReg x y) s = .next t ∧
        (x ≠ 0xF#4 →
          ((t.readV x).toNat : Int) = ((s.readV y).toNat - (s.readV x).toNat : Int) % 256) ∧
        t.readV 0xF#4 = (if (s.readV x).toNat ≤ (s.readV y).toNat then 1 else 0) ∧
        OnlyRegs s t [x, 0xF#4] ∧ AdvancedBy s t 2)

/-- R139, R141: the shifts by one of Vx, whatever y is, and VF the bit shifted out, written last (the
spec's own choice D1). -/
def Obligations.ShiftsMoveTheLostBitToVF : Prop :=
  ∀ (s : State) (x y : Nibble),
    (WordIs (.shr x y) (fmtXYN 0x8#4 x y 0x6#4) ∧
      ∃ t, exec (.shr x y) s = .next t ∧
        (x ≠ 0xF#4 → (t.readV x).toNat = (s.readV x).toNat / 2) ∧
        (t.readV 0xF#4).toNat = (s.readV x).toNat % 2 ∧
        OnlyRegs s t [x, 0xF#4] ∧ AdvancedBy s t 2) ∧
    (WordIs (.shl x y) (fmtXYN 0x8#4 x y 0xE#4) ∧
      ∃ t, exec (.shl x y) s = .next t ∧
        (x ≠ 0xF#4 → (t.readV x).toNat = (s.readV x).toNat * 2 % 256) ∧
        (t.readV 0xF#4).toNat = (s.readV x).toNat / 128 ∧
        OnlyRegs s t [x, 0xF#4] ∧ AdvancedBy s t 2)

/-- R142: one fresh draw masked by kk; every draw value is admitted, and no flag is written. How the model
holds the draws is log entry 2. -/
def Obligations.RandomByteIsMaskedAndAnyDrawCanCome : Prop :=
  ∀ (s : State) (x : Nibble) (kk : Byte),
    WordIs (.rnd x kk) (fmtXKK 0xC#4 x kk) ∧
    (∃ t, exec (.rnd x kk) s = .next t ∧ t.readV x = s.randomByte &&& kk ∧
      KeepsRegs s t [x] ∧ KeepsMemory s t ∧ AdvancedBy s t 2 ∧
      t = { s with
            v := t.v, pc := t.pc, outcome := t.outcome, rndSupply := s.rndSupply.tail,
            draws := s.draws + 1 }) ∧
    (∀ b : Byte, ∃ t, exec (.rnd x kk) { s with rndSupply := b :: s.rndSupply } = .next t ∧
      t.readV x = b &&& kk ∧ t.rndSupply = s.rndSupply)

/-! ## Control transfer -/

/-- R102, R110: the jumps take their target unchecked; Bnnn adds V0 without reduction modulo 4096 (the
spec's own choices D4, D5 and D6). -/
def Obligations.JumpsGoToTheirTarget : Prop :=
  ∀ (s : State) (nnn : Addr12),
    (WordIs (.jp nnn) (fmtA12 0x1#4 nnn) ∧
      ∃ t, exec (.jp nnn) s = .next t ∧ t.pc.toNat = nnn.toNat ∧ t.outcome = some .advanced ∧
        OnlyPc s t) ∧
    (WordIs (.jpV0 nnn) (fmtA12 0xB#4 nnn) ∧
      ∃ t, exec (.jpV0 nnn) s = .next t ∧ t.pc.toNat = nnn.toNat + (s.readV 0x0#4).toNat ∧
        t.outcome = some .advanced ∧ OnlyPc s t)

/-- R103: CALL pushes PC + 2 and jumps while SP < 64, and takes StackOverflow at SP = 64. The range of SP
is the spec's own choice D14. -/
def Obligations.CallPushesOrOverflows : Prop :=
  ∀ (s : State) (nnn : Addr12),
    WordIs (.call nnn) (fmtA12 0x2#4 nnn) ∧
    (s.sp.val = 64 → ∃ t, exec (.call nnn) s = .next t ∧
      FaultTaken s t (.stackOverflow s.pc (fmtA12 0x2#4 nnn))) ∧
    (∀ h : s.sp.val < 64, ∃ t, exec (.call nnn) s = .next t ∧
      t.stack[s.sp.val].toNat = (s.pc.toNat + 2) % 65536 ∧
      (∀ j (hj : j < 64), j ≠ s.sp.val → t.stack[j] = s.stack[j]) ∧
      t.sp.val = s.sp.val + 1 ∧ t.pc.toNat = nnn.toNat ∧ t.outcome = some .advanced ∧
      t = { s with stack := t.stack, sp := t.sp, pc := t.pc, outcome := t.outcome } ∧
      KeepsMemory s t)

/-- R101: RET pops the return address, with no further increment, and takes StackUnderflow at SP = 0; in a
state a run reaches it returns to 0x1000 at most, and a return to 0x1000 faults at the next fetch. That the
entry keeps its value and that SP counts entries are the spec's own choice D14, and the faults D6 and D7. -/
def Obligations.ReturnPopsOrUnderflows : Prop :=
  ∀ s : State,
    WordIs .ret 0x00EE#16 ∧
    (s.sp.val = 0 → ∃ t, exec .ret s = .next t ∧ FaultTaken s t (.stackUnderflow s.pc 0x00EE#16)) ∧
    (∀ h : 0 < s.sp.val, ∃ t, exec .ret s = .next t ∧ t.sp.val = s.sp.val - 1 ∧
      t.pc = s.stack[s.sp.val - 1]'(by omega) ∧ t.outcome = some .advanced ∧
      (s.Inv → t.pc.toNat ≤ 0x1000) ∧
      (t.pc.toNat = 0x1000 →
        ∃ u, runInstruction t = .next u ∧ FaultTaken t u (.fetchOutOfBounds 0x1000#16)) ∧
      t = { s with sp := t.sp, pc := t.pc, outcome := t.outcome } ∧ KeepsMemory s t)

/-- A step that resets nothing keeps every stack entry below SP (R27, the spec's own choice D14): a push
writes at SP, and a pop writes no entry. -/
def Obligations.StepKeepsTheEntriesBelowSP : Prop :=
  ∀ s t : State, NoResetComing s → step s = .next t →
    ∀ j (hj : j < 64), j < s.sp.val → t.stack[j] = s.stack[j]

/-- The call discipline of R104: after a CALL at PC, any run of whole cycles that never goes below the
callee's depth and ends at it, with no reset or load in between, and then RET, PC is PC + 2 and SP is what
it was. That CALL succeeds up to depth 64 and a pop keeps its entry is the spec's own choice D14. -/
def Obligations.ReturnAfterABalancedBodyResumesAtTheCall : Prop :=
  ∀ (s t u : State) (nnn : Addr12) (k : Nat),
    s.sp.val < 64 → exec (.call nnn) s = .next t →
    RunAtDepth (s.sp.val + 1) k t u → u.sp = t.sp →
    ∃ w, exec .ret u = .next w ∧ w.pc = s.pc + 2#16 ∧ w.sp = s.sp

/-- R106, R107: 3xkk and 4xkk advance by 4 when the condition holds, by 2 when not, and change nothing
else. -/
def Obligations.ByteSkipsAdvanceByFourOrTwo : Prop :=
  ∀ (s : State) (x : Nibble) (kk : Byte),
    (WordIs (.seByte x kk) (fmtXKK 0x3#4 x kk) ∧
      ∃ t, exec (.seByte x kk) s = .next t ∧ OnlyPc s t ∧
        AdvancedBy s t (if (s.readV x).toNat = kk.toNat then 4 else 2)) ∧
    (WordIs (.sneByte x kk) (fmtXKK 0x4#4 x kk) ∧
      ∃ t, exec (.sneByte x kk) s = .next t ∧ OnlyPc s t ∧
        AdvancedBy s t (if (s.readV x).toNat ≠ kk.toNat then 4 else 2))

/-- R108, R109: 5xy0 and 9xy0 advance by 4 when the condition holds, by 2 when not, and change nothing
else; with n not 0 the word is no skip but unmatched, the spec's own choice D3. -/
def Obligations.RegisterSkipsAdvanceByFourOrTwo : Prop :=
  ∀ (s : State) (x y : Nibble),
    (WordIs (.seReg x y) (fmtXYN 0x5#4 x y 0x0#4) ∧
      ∃ t, exec (.seReg x y) s = .next t ∧ OnlyPc s t ∧
        AdvancedBy s t (if (s.readV x).toNat = (s.readV y).toNat then 4 else 2)) ∧
    (WordIs (.sneReg x y) (fmtXYN 0x9#4 x y 0x0#4) ∧
      ∃ t, exec (.sneReg x y) s = .next t ∧ OnlyPc s t ∧
        AdvancedBy s t (if (s.readV x).toNat ≠ (s.readV y).toNat then 4 else 2)) ∧
    (∀ n : Nibble, n ≠ 0x0#4 →
      decodeWord (fmtXYN 0x5#4 x y n) = none ∧ decodeWord (fmtXYN 0x9#4 x y n) = none)

/-! ## Address register and memory -/

/-- R161: Annn sets I to the zero-extended nnn and nothing else. -/
def Obligations.LoadAddressWritesOnlyI : Prop :=
  ∀ (s : State) (nnn : Addr12),
    WordIs (.ldI nnn) (fmtA12 0xA#4 nnn) ∧
    ∃ t, exec (.ldI nnn) s = .next t ∧ t.i.toNat = nnn.toNat ∧ OnlyI s t ∧ AdvancedBy s t 2

/-- R162, R163: Fx1E and Fx29 set I alone; no flag, no bounds check, no masking of Vx. The modulus, the
flag left alone and the missing mask are the spec's own choices D4, D2 and D9. -/
def Obligations.AddressAddAndGlyphAddressWriteOnlyI : Prop :=
  ∀ (s : State) (x : Nibble),
    (WordIs (.addI x) (fmtXKK 0xF#4 x 0x1E#8) ∧
      ∃ t, exec (.addI x) s = .next t ∧ t.i.toNat = (s.i.toNat + (s.readV x).toNat) % 65536 ∧
        OnlyI s t ∧ AdvancedBy s t 2) ∧
    (WordIs (.ldF x) (fmtXKK 0xF#4 x 0x29#8) ∧
      ∃ t, exec (.ldF x) s = .next t ∧ t.i.toNat = (s.readV x).toNat * 5 ∧ OnlyI s t ∧
        AdvancedBy s t 2)

/-- R164: Fx33 stores the three decimal digits at I, I + 1, I + 2, or faults and writes nothing (the spec's
own choice D6). -/
def Obligations.BcdStoresThreeDigitsOrFaults : Prop :=
  ∀ (s : State) (x : Nibble), s.mem.wf = true →
    WordIs (.ldB x) (fmtXKK 0xF#4 x 0x33#8) ∧
    (0xFFF < s.effAddr 2 → ∃ t, exec (.ldB x) s = .next t ∧
      FaultTaken s t
        (.writeOutOfBounds s.pc (fmtXKK 0xF#4 x 0x33#8) (max s.i.toNat 0x1000))) ∧
    (s.effAddr 2 ≤ 0xFFF → ∃ t, exec (.ldB x) s = .next t ∧
      (t.mem.read (s.effAddr 0)).toNat = (s.readV x).toNat / 100 ∧
      (t.mem.read (s.effAddr 1)).toNat = (s.readV x).toNat / 10 % 10 ∧
      (t.mem.read (s.effAddr 2)).toNat = (s.readV x).toNat % 10 ∧
      KeepsMemoryOutside s t (s.effAddr 0) 3 ∧
      t = { s with mem := t.mem, pc := t.pc, outcome := t.outcome } ∧ AdvancedBy s t 2)

/-- R165: Fx55 stores V0..Vx at I upward, each register its own byte, and moves I past them, or faults and
changes nothing (the spec's own choice D6). -/
def Obligations.BlockStoreWritesEachRegisterOrFaults : Prop :=
  ∀ (s : State) (x : Nibble), s.mem.wf = true →
    WordIs (.storeRegs x) (fmtXKK 0xF#4 x 0x55#8) ∧
    (0xFFF < s.effAddr x.toNat → ∃ t, exec (.storeRegs x) s = .next t ∧
      FaultTaken s t
        (.writeOutOfBounds s.pc (fmtXKK 0xF#4 x 0x55#8) (max s.i.toNat 0x1000))) ∧
    (s.effAddr x.toNat ≤ 0xFFF → ∃ t, exec (.storeRegs x) s = .next t ∧
      (∀ r : Nibble, r.toNat ≤ x.toNat → t.mem.read (s.effAddr r.toNat) = s.readV r) ∧
      KeepsMemoryOutside s t (s.effAddr 0) (x.toNat + 1) ∧
      t.i.toNat = s.i.toNat + x.toNat + 1 ∧
      t = { s with mem := t.mem, i := t.i, pc := t.pc, outcome := t.outcome } ∧ AdvancedBy s t 2)

/-- R166: Fx65 loads V0..Vx from I upward, leaves the registers above Vx and moves I past the bytes, or
faults and changes nothing (the spec's own choice D6). -/
def Obligations.BlockLoadReadsEachRegisterOrFaults : Prop :=
  ∀ (s : State) (x : Nibble),
    WordIs (.loadRegs x) (fmtXKK 0xF#4 x 0x65#8) ∧
    (0xFFF < s.effAddr x.toNat → ∃ t, exec (.loadRegs x) s = .next t ∧
      FaultTaken s t
        (.readOutOfBounds s.pc (fmtXKK 0xF#4 x 0x65#8) (max s.i.toNat 0x1000))) ∧
    (s.effAddr x.toNat ≤ 0xFFF → ∃ t, exec (.loadRegs x) s = .next t ∧
      (∀ r : Nibble, t.readV r =
        if r.toNat ≤ x.toNat then s.mem.read (s.effAddr r.toNat) else s.readV r) ∧
      t.i.toNat = s.i.toNat + x.toNat + 1 ∧
      t = { s with v := t.v, i := t.i, pc := t.pc, outcome := t.outcome } ∧
      KeepsMemory s t ∧ AdvancedBy s t 2)

/-- A store is seen by the next fetch and by every later one while memory stays, be one or both of the
fetched bytes stored, and not by the fetch of the storing instruction itself, whose effect does not depend on
what it overwrites (R61, the spec's own choice D13): for Fx55 and for Fx33. -/
def Obligations.StoresAreSeenByTheNextFetch : Prop :=
  ∀ (s : State) (x : Nibble), s.mem.wf = true →
    (s.effAddr x.toNat ≤ 0xFFF → ∃ t, exec (.storeRegs x) s = .next t ∧
      (s.fetch = some (bytesOfWord (fmtXKK 0xF#4 x 0x55#8)) → runInstruction s = .next t) ∧
      FetchesSeeStore s t (x.toNat + 1) (fun k => s.readV (BitVec.ofNat 4 k))) ∧
    (s.effAddr 2 ≤ 0xFFF → ∃ t, exec (.ldB x) s = .next t ∧
      (s.fetch = some (bytesOfWord (fmtXKK 0xF#4 x 0x33#8)) → runInstruction s = .next t) ∧
      FetchesSeeStore s t 3 (fun k => BitVec.ofNat 8 ((s.readV x).toNat / 10 ^ (2 - k) % 10)))

/-! ## Display -/

/-- R181: CLS turns every cell off and sets Dirty, even when the buffer was off; VF is unchanged (the spec's
own choice D2). -/
def Obligations.ClearTurnsEveryCellOff : Prop :=
  ∀ s : State,
    WordIs .cls 0x00E0#16 ∧
    ∃ t, exec .cls s = .next t ∧ (∀ c, c < 2048 → dispCell t.disp c = false) ∧ t.dirty = true ∧
      t = { s with disp := t.disp, dirty := t.dirty, pc := t.pc, outcome := t.outcome } ∧
      KeepsMemory s t ∧ AdvancedBy s t 2

/-- R182: the draw flips exactly the cells the set sprite bits reach, each once; VF says whether one of
them was on; Dirty is set when one was flipped; or it faults and changes nothing. The fault and the draw of
height 0 are the spec's own choices D6 and D26. -/
def Obligations.DrawFlipsTheSpriteCellsAndReportsCollision : Prop :=
  ∀ (s : State) (x y n : Nibble),
    WordIs (.drw x y n) (fmtXYN 0xD#4 x y n) ∧
    (0 < n.toNat ∧ 0xFFF < s.effAddr (n.toNat - 1) → ∃ t, exec (.drw x y n) s = .next t ∧
      FaultTaken s t (.readOutOfBounds s.pc (fmtXYN 0xD#4 x y n) (max s.i.toNat 0x1000))) ∧
    (n.toNat = 0 ∨ s.effAddr (n.toNat - 1) ≤ 0xFFF → ∃ t, exec (.drw x y n) s = .next t ∧
      (∀ c, c < 2048 → (dispCell t.disp c = true ↔
        (dispCell s.disp c = true ∧ ¬ SpriteHits s x y n c) ∨
        (dispCell s.disp c = false ∧ SpriteHits s x y n c))) ∧
      (t.readV 0xF#4 = 1 ∧ (∃ c, SpriteHits s x y n c ∧ dispCell s.disp c = true) ∨
       t.readV 0xF#4 = 0 ∧ ∀ c, SpriteHits s x y n c → dispCell s.disp c = false) ∧
      (t.dirty = true ↔ s.dirty = true ∨ ∃ c, SpriteHits s x y n c) ∧
      KeepsRegs s t [0xF#4] ∧ KeepsMemory s t ∧ AdvancedBy s t 2 ∧
      t = { s with
            disp := t.disp, dirty := t.dirty, v := t.v, pc := t.pc, outcome := t.outcome })

/-! ## Keys and timers -/

/-- R200, R201: the key skips test the latch at Vx, or fault on an index above 15 (the spec's own choice
D8). -/
def Obligations.KeySkipsTestTheLatchOrFault : Prop :=
  ∀ (s : State) (x : Nibble),
    WordIs (.skp x) (fmtXKK 0xE#4 x 0x9E#8) ∧ WordIs (.sknp x) (fmtXKK 0xE#4 x 0xA1#8) ∧
    (15 < (s.readV x).toNat →
      (∃ t, exec (.skp x) s = .next t ∧
        FaultTaken s t (.keyIndexOutOfRange s.pc (fmtXKK 0xE#4 x 0x9E#8) (s.readV x))) ∧
      (∃ t, exec (.sknp x) s = .next t ∧
        FaultTaken s t (.keyIndexOutOfRange s.pc (fmtXKK 0xE#4 x 0xA1#8) (s.readV x)))) ∧
    ((s.readV x).toNat ≤ 15 →
      (∃ t, exec (.skp x) s = .next t ∧ OnlyPc s t ∧
        AdvancedBy s t (if s.keys.getLsbD (s.readV x).toNat = true then 4 else 2)) ∧
      (∃ t, exec (.sknp x) s = .next t ∧ OnlyPc s t ∧
        AdvancedBy s t (if s.keys.getLsbD (s.readV x).toNat = false then 4 else 2)))

/-- R203: Fx0A with no key pressed changes nothing but the outcome, PC included; otherwise Vx is the
highest-indexed pressed key. That it waits for a level, not an edge, is the spec's own choice D22. -/
def Obligations.WaitForKeyTakesTheHighestPressedKey : Prop :=
  ∀ (s : State) (x : Nibble),
    WordIs (.ldVxK x) (fmtXKK 0xF#4 x 0x0A#8) ∧
    ((∀ k, k < 16 → s.keys.getLsbD k = false) → ∃ t, exec (.ldVxK x) s = .next t ∧
      t = { s with outcome := some .waitingForKey }) ∧
    (∀ k, k < 16 → s.keys.getLsbD k = true → (∀ j, k < j → j < 16 → s.keys.getLsbD j = false) →
      ∃ t, exec (.ldVxK x) s = .next t ∧ (t.readV x).toNat = k ∧ OnlyRegs s t [x] ∧
        AdvancedBy s t 2)

/-- R202, R204: the moves from and to the delay timer. -/
def Obligations.DelayTimerMovesCopyOneByte : Prop :=
  ∀ (s : State) (x : Nibble),
    (WordIs (.ldVxDT x) (fmtXKK 0xF#4 x 0x07#8) ∧
      ∃ t, exec (.ldVxDT x) s = .next t ∧ t.readV x = s.dt ∧ OnlyRegs s t [x] ∧
        AdvancedBy s t 2) ∧
    (WordIs (.ldDTVx x) (fmtXKK 0xF#4 x 0x15#8) ∧
      ∃ t, exec (.ldDTVx x) s = .next t ∧ t.dt = s.readV x ∧
        t = { s with dt := t.dt, pc := t.pc, outcome := t.outcome } ∧ KeepsMemory s t ∧
        AdvancedBy s t 2)

/-- R205: the move to the sound timer, with no beep whatever is written (the spec's own choice D18). -/
def Obligations.SoundTimerMoveEmitsNoBeep : Prop :=
  ∀ (s : State) (x : Nibble),
    WordIs (.ldSTVx x) (fmtXKK 0xF#4 x 0x18#8) ∧
    ∃ t, exec (.ldSTVx x) s = .next t ∧ t.st = s.readV x ∧ t.outputs = s.outputs ∧
      t = { s with st := t.st, pc := t.pc, outcome := t.outcome } ∧ KeepsMemory s t ∧
      AdvancedBy s t 2

/-! ## Rules over the whole machine -/

/-- PC's next value over all instructions (R75): a jump's target, a skip's +4 or +2, +2 for the others, and
unchanged where the instruction waits or faults. That targets are taken unchecked and PC + 2 is modulo 2^16
are the spec's own choices D4, D5 and D6. -/
def Obligations.ProgramCounterAdvancesAsTheRuleSays : Prop :=
  ∀ (i : Instr) (s t : State), exec i s = .next t →
    (t.outcome = some .advanced ∧ PcMoves i s t) ∨ (t.outcome ≠ some .advanced ∧ t.pc = s.pc)

/-- VF changes only by the flag writers and by instructions that name it (R22, R130; the spec's own choice
D2). -/
def Obligations.OnlyFlagWritersAndNamedDestinationsChangeVF : Prop :=
  ∀ (i : Instr) (s t : State), exec i s = .next t → t.readV 0xF#4 ≠ s.readV 0xF#4 → mayWriteVF i

/-- No instruction other than 2nnn and 00EE writes SP or the stack (R27, the spec's own choice D14). -/
def Obligations.OnlyCallAndReturnTouchTheStack : Prop :=
  ∀ (i : Instr) (s t : State), exec i s = .next t → (t.sp ≠ s.sp ∨ t.stack ≠ s.stack) →
    i = .ret ∨ ∃ nnn, i = .call nnn

/-- Only Fx33 and Fx55 write memory, only in the range of R58, and only in bounds (R50, R52). -/
def Obligations.OnlyStoresChangeMemoryInTheirRange : Prop :=
  ∀ (i : Instr) (s t : State) (a : Nat), s.mem.wf = true → exec i s = .next t →
    t.mem.read a ≠ s.mem.read a →
    a ≤ 0xFFF ∧ s.effAddr 0 ≤ a ∧
    ((∃ x, i = .ldB x ∧ a ≤ s.effAddr 2) ∨ (∃ x, i = .storeRegs x ∧ a ≤ s.effAddr x.toNat))

/-- The engine never writes the key latch; only key events, reset and load do (R32, R62). -/
def Obligations.OnlyTheHostWritesTheKeyLatch : Prop :=
  (∀ (i : Instr) (s t : State), exec i s = .next t → t.keys = s.keys) ∧
  (∀ s t : State, (∀ e ∈ s.turnEvents, e = .stop) → step s = .next t → t.keys = s.keys)

/-- No instruction reads ST (R29): two states that differ in ST alone give results that differ in ST alone. -/
def Obligations.NoInstructionReadsTheSoundTimer : Prop :=
  ∀ (i : Instr) (s : State) (b : Byte), ∃ t t', exec i s = .next t ∧
    exec i { s with st := b } = .next t' ∧ t = { t' with st := t.st }

/-- No instruction reads Dirty or RunState (R34, R184): two states that differ in them alone give results
that differ in them alone. -/
def Obligations.NoInstructionReadsDirtyOrRunState : Prop :=
  ∀ (i : Instr) (s : State) (d : Bool) (r : RunState), ∃ t t', exec i s = .next t ∧
    exec i { s with dirty := d, runState := r } = .next t' ∧
    t = { t' with dirty := t.dirty, runState := t.runState }

/-- The canonical form is one: memories that read alike are equal data (the model's own form, log entry
8). -/
def Obligations.MemoriesThatReadAlikeAreEqual : Prop :=
  ∀ m m' : Memory, m.wf = true → m'.wf = true → (∀ a, m.read a = m'.read a) → m = m'

/-- A core that was reset with no program loaded, whatever FONT is and whatever the free tick counts are,
makes 1792 no-op steps and then faults on the fetch at 0x1000 (R263). -/
def Obligations.ResetCoreWithoutProgramRunsToTheFetchFault : Prop :=
  ∀ s : State, s.script = [] →
    (∀ k, k ≤ 1792 → ∃ t, Host.Core.run core k (s.hostEvent .reset) = .next t ∧
      t.pc.toNat = 0x200 + 2 * k ∧ t.runState = .running) ∧
    ∃ t, Host.Core.run core 1793 (s.hostEvent .reset) = .next t ∧
      t.pc.toNat = 0x1000 ∧ t.runState = .faulted (.fetchOutOfBounds 0x1000#16)

/-! ## The invariant -/

/-- Every step keeps the invariant: memory canonical, PC at most 0x10FE, stack entries at most 0x1000, the
run state and the outcome port naming the same fault, every recorded fault true of the state it halted, with
the condition of R221 (R50, R101, R110, R221, R222). That a fault is precise and halts the engine, with its
code and information, is the spec's own choice D6, D7 and D8, that it is a next state is log entry 7, and the
canonical form is the model's own, log entry 8. -/
def Obligations.StepKeepsTheInvariant : Prop :=
  ∀ s t : State, s.Inv → step s = .next t → t.Inv

/-- The state right after reset meets the invariant. PC and the stack are as R38 says; Running is the spec's
own choice D20, the outcome port saying none is log entry 6, and the canonical memory is the model's own form,
log entry 8. -/
def Obligations.ResetStateMeetsTheInvariant : Prop := State.reset.Inv
end

