-- ==== Sys2Proof/Laws/Decode.lean ====
section
/-! SUPPORT. The fields of each format's word (R71): what the decoder reads back is what the encoder put
there; and what each mask of the opcode map keeps of a word (R77). -/

namespace Sys2Proof

theorem fmtA12_bit (f : Nibble) (a : Addr12) (k : Nat) :
    (fmtA12 f a).getLsbD k = if k < 12 then a.getLsbD k else f.getLsbD (k - 12) := by
  show BitVec.getLsbD (w := 4 + 12) (f ++ a) k = _
  rw [BitVec.getLsbD_append]

theorem fmtXKK_bit (f x : Nibble) (kk : Byte) (k : Nat) :
    (fmtXKK f x kk).getLsbD k =
      if k < 8 then kk.getLsbD k else if k < 12 then x.getLsbD (k - 8) else f.getLsbD (k - 12) := by
  show BitVec.getLsbD (w := 4 + 4 + 8) ((f ++ x : BitVec (4 + 4)) ++ kk) k = _
  rw [BitVec.getLsbD_append, BitVec.getLsbD_append]
  by_cases h1 : k < 8
  · simp [h1]
  · have h2 : (k - 8 < 4) ↔ (k < 12) := by omega
    have h3 : k - 8 - 4 = k - 12 := by omega
    simp [h1, h2, h3]

theorem fmtXYN_bit (f x y n : Nibble) (k : Nat) :
    (fmtXYN f x y n).getLsbD k =
      if k < 4 then n.getLsbD k else if k < 8 then y.getLsbD (k - 4)
      else if k < 12 then x.getLsbD (k - 8) else f.getLsbD (k - 12) := by
  show BitVec.getLsbD (w := 4 + 4 + 4 + 4) (((f ++ x : BitVec (4 + 4)) ++ y : BitVec (4 + 4 + 4)) ++ n) k = _
  rw [BitVec.getLsbD_append, BitVec.getLsbD_append, BitVec.getLsbD_append]
  by_cases h1 : k < 4
  · simp [h1]
  · have h2 : (k - 4 < 4) ↔ (k < 8) := by omega
    have h4 : k - 4 - 4 = k - 8 := by omega
    have h6 : k - 8 - 4 = k - 12 := by omega
    by_cases h8 : k < 8
    · simp [h1, h2, h8]
    · have h3 : (k - 8 < 4) ↔ (k < 12) := by omega
      simp [h1, h2, h3, h4, h6, h8]

@[simp] theorem fieldFamily_fmtA12 (f : Nibble) (a : Addr12) : fieldFamily (fmtA12 f a) = f := by
  apply BitVec.eq_of_getLsbD_eq; intro k hk
  have h1 : ¬ 12 + k < 12 := by omega
  simp [fieldFamily, fmtA12_bit, hk]

@[simp] theorem fieldNNN_fmtA12 (f : Nibble) (a : Addr12) : fieldNNN (fmtA12 f a) = a := by
  apply BitVec.eq_of_getLsbD_eq; intro k hk
  simp [fieldNNN, fmtA12_bit, hk]

@[simp] theorem fieldFamily_fmtXKK (f x : Nibble) (kk : Byte) : fieldFamily (fmtXKK f x kk) = f := by
  apply BitVec.eq_of_getLsbD_eq; intro k hk
  have h1 : ¬ 12 + k < 8 := by omega
  simp [fieldFamily, fmtXKK_bit, hk, h1]

@[simp] theorem fieldX_fmtXKK (f x : Nibble) (kk : Byte) : fieldX (fmtXKK f x kk) = x := by
  apply BitVec.eq_of_getLsbD_eq; intro k hk
  have h1 : 8 + k < 12 := by omega
  simp [fieldX, fmtXKK_bit, hk, h1]

@[simp] theorem fieldKK_fmtXKK (f x : Nibble) (kk : Byte) : fieldKK (fmtXKK f x kk) = kk := by
  apply BitVec.eq_of_getLsbD_eq; intro k hk
  simp [fieldKK, fmtXKK_bit, hk]

@[simp] theorem fieldFamily_fmtXYN (f x y n : Nibble) : fieldFamily (fmtXYN f x y n) = f := by
  apply BitVec.eq_of_getLsbD_eq; intro k hk
  have h1 : ¬ 12 + k < 4 := by omega
  have h2 : ¬ 12 + k < 8 := by omega
  simp [fieldFamily, fmtXYN_bit, hk, h1, h2]

@[simp] theorem fieldX_fmtXYN (f x y n : Nibble) : fieldX (fmtXYN f x y n) = x := by
  apply BitVec.eq_of_getLsbD_eq; intro k hk
  have h1 : ¬ 8 + k < 4 := by omega
  have h2 : 8 + k < 12 := by omega
  simp [fieldX, fmtXYN_bit, hk, h1, h2]

@[simp] theorem fieldY_fmtXYN (f x y n : Nibble) : fieldY (fmtXYN f x y n) = y := by
  apply BitVec.eq_of_getLsbD_eq; intro k hk
  have h2 : 4 + k < 8 := by omega
  simp [fieldY, fmtXYN_bit, hk, h2]

@[simp] theorem fieldN_fmtXYN (f x y n : Nibble) : fieldN (fmtXYN f x y n) = n := by
  apply BitVec.eq_of_getLsbD_eq; intro k hk
  simp [fieldN, fmtXYN_bit, hk]

/-- A word is put together again from its fields, read in format A12 (R71). -/
theorem fmtA12_fields (w : Word) : fmtA12 (fieldFamily w) (fieldNNN w) = w := by
  apply BitVec.eq_of_getLsbD_eq; intro k hk
  rw [fmtA12_bit]
  by_cases h : k < 12
  · simp [fieldNNN, h]
  · have h1 : k - 12 < 4 := by omega
    have h2 : 12 + (k - 12) = k := by omega
    simp [fieldFamily, h, h1, h2]

/-- A word is put together again from its fields, read in format XKK or XS (R71). -/
theorem fmtXKK_fields (w : Word) : fmtXKK (fieldFamily w) (fieldX w) (fieldKK w) = w := by
  apply BitVec.eq_of_getLsbD_eq; intro k hk
  rw [fmtXKK_bit]
  by_cases h : k < 8
  · simp [fieldKK, h]
  · by_cases h8 : k < 12
    · have h1 : k - 8 < 4 := by omega
      have h2 : 8 + (k - 8) = k := by omega
      simp [fieldX, h, h8, h1, h2]
    · have h1 : k - 12 < 4 := by omega
      have h2 : 12 + (k - 12) = k := by omega
      simp [fieldFamily, h, h8, h1, h2]

/-- A word is put together again from its fields, read in format XYN or XYS (R71). -/
theorem fmtXYN_fields (w : Word) : fmtXYN (fieldFamily w) (fieldX w) (fieldY w) (fieldN w) = w := by
  apply BitVec.eq_of_getLsbD_eq; intro k hk
  rw [fmtXYN_bit]
  by_cases h : k < 4
  · simp [fieldN, h]
  · by_cases h4 : k < 8
    · have h1 : k - 4 < 4 := by omega
      have h2 : 4 + (k - 4) = k := by omega
      simp [fieldY, h, h4, h1, h2]
    · by_cases h8 : k < 12
      · have h1 : k - 8 < 4 := by omega
        have h2 : 8 + (k - 8) = k := by omega
        simp [fieldX, h, h4, h8, h1, h2]
      · have h1 : k - 12 < 4 := by omega
        have h2 : 12 + (k - 12) = k := by omega
        simp [fieldFamily, h, h4, h8, h1, h2]

/-- Two bytes put together and taken apart again (R55). -/
theorem wordOfBytes_bit (hi lo : Byte) (k : Nat) :
    (wordOfBytes hi lo).getLsbD k = if k < 8 then lo.getLsbD k else hi.getLsbD (k - 8) := by
  show BitVec.getLsbD (w := 8 + 8) (hi ++ lo) k = _
  rw [BitVec.getLsbD_append]

/-- The two bytes of a word make the word (R55). -/
@[simp] theorem wordOfBytes_bytesOfWord (w : Word) :
    wordOfBytes (w.extractLsb' 8 8) (w.extractLsb' 0 8) = w := by
  apply BitVec.eq_of_getLsbD_eq; intro k hk
  rw [wordOfBytes_bit]
  by_cases h : k < 8
  · simp [h]
  · have h1 : k - 8 < 8 := by omega
    have h2 : 8 + (k - 8) = k := by omega
    simp [h, h1, h2]

/-- The word of two bytes as a number: the first byte is the high one (R8). -/
theorem wordOfBytes_toNat (hi lo : Byte) : (wordOfBytes hi lo).toNat = hi.toNat * 256 + lo.toNat := by
  show BitVec.toNat (w := 8 + 8) (hi ++ lo) = _
  rw [BitVec.toNat_append, ← Nat.shiftLeft_add_eq_or_of_lt lo.isLt, Nat.shiftLeft_eq]

/-- The mask 0xF000 keeps the family digit (R77). -/
theorem and_family_mask (w : Word) : w &&& 0xF000#16 = fmtA12 (fieldFamily w) 0 := by
  apply BitVec.eq_of_getLsbD_eq; intro k hk
  rw [fmtA12_bit]
  interval_cases k <;> simp [fieldFamily]

/-- The mask 0xF00F keeps the family digit and n (R77). -/
theorem and_sub_mask (w : Word) : w &&& 0xF00F#16 = fmtXYN (fieldFamily w) 0 0 (fieldN w) := by
  apply BitVec.eq_of_getLsbD_eq; intro k hk
  rw [fmtXYN_bit]
  interval_cases k <;> simp [fieldFamily, fieldN]

/-- The mask 0xF0FF keeps the family digit and kk (R77). -/
theorem and_low_mask (w : Word) : w &&& 0xF0FF#16 = fmtXKK (fieldFamily w) 0 (fieldKK w) := by
  apply BitVec.eq_of_getLsbD_eq; intro k hk
  rw [fmtXKK_bit]
  interval_cases k <;> simp [fieldFamily, fieldKK]

/-- A row with the mask 0xF000 fits a word of its family (R74, R77). -/
theorem fits_family (f : Nibble) (w : Word) :
    OpcodeRow.fits ⟨0xF000#16, fmtA12 f 0⟩ w = decide (fieldFamily w = f) := by
  rw [OpcodeRow.fits, and_family_mask, Bool.eq_iff_iff, beq_iff_eq, decide_eq_true_eq]
  exact ⟨fun h => by simpa using congrArg fieldFamily h, fun h => by rw [h]⟩

/-- A row with the mask 0xF00F fits a word of its family with its n (R74, R77). -/
theorem fits_sub (f n : Nibble) (w : Word) :
    OpcodeRow.fits ⟨0xF00F#16, fmtXYN f 0 0 n⟩ w = decide (fieldFamily w = f ∧ fieldN w = n) := by
  rw [OpcodeRow.fits, and_sub_mask, Bool.eq_iff_iff, beq_iff_eq, decide_eq_true_eq]
  exact ⟨fun h => ⟨by simpa using congrArg fieldFamily h, by simpa using congrArg fieldN h⟩,
    fun h => by rw [h.1, h.2]⟩

/-- A row with the mask 0xF0FF fits a word of its family with its kk (R74, R77). -/
theorem fits_low (f : Nibble) (kk : Byte) (w : Word) :
    OpcodeRow.fits ⟨0xF0FF#16, fmtXKK f 0 kk⟩ w = decide (fieldFamily w = f ∧ fieldKK w = kk) := by
  rw [OpcodeRow.fits, and_low_mask, Bool.eq_iff_iff, beq_iff_eq, decide_eq_true_eq]
  exact ⟨fun h => ⟨by simpa using congrArg fieldFamily h, by simpa using congrArg fieldKK h⟩,
    fun h => by rw [h.1, h.2]⟩

end Sys2Proof
end

