-- ==== Sys2Proof/Laws/State.lean ====
section
/-! SUPPORT. The fields of every shared update of State, so that no later proof unfolds one; each
statement lists every field, and simp takes its parts as separate rules. -/

namespace Sys2Proof.Machine

@[simp] theorem State.writeV_fields (s : State) (r : Nibble) (b : Byte) :
    (s.writeV r b).mem = s.mem ∧ (s.writeV r b).v = s.v.set r.toNat b ∧ (s.writeV r b).i = s.i ∧
    (s.writeV r b).pc = s.pc ∧ (s.writeV r b).sp = s.sp ∧ (s.writeV r b).stack = s.stack ∧
    (s.writeV r b).dt = s.dt ∧ (s.writeV r b).st = s.st ∧ (s.writeV r b).disp = s.disp ∧
    (s.writeV r b).dirty = s.dirty ∧ (s.writeV r b).keys = s.keys ∧
    (s.writeV r b).runState = s.runState ∧ (s.writeV r b).stopPending = s.stopPending ∧
    (s.writeV r b).outcome = s.outcome ∧ (s.writeV r b).outputs = s.outputs ∧
    (s.writeV r b).script = s.script ∧ (s.writeV r b).rndSupply = s.rndSupply ∧
    (s.writeV r b).draws = s.draws ∧ (s.writeV r b).turns = s.turns ∧ (s.writeV r b).font = s.font := by
  simp [State.writeV]

@[simp] theorem State.jumpTo_fields (s : State) (w : Word) :
    (s.jumpTo w).mem = s.mem ∧ (s.jumpTo w).v = s.v ∧ (s.jumpTo w).i = s.i ∧ (s.jumpTo w).pc = w ∧
    (s.jumpTo w).sp = s.sp ∧ (s.jumpTo w).stack = s.stack ∧ (s.jumpTo w).dt = s.dt ∧
    (s.jumpTo w).st = s.st ∧ (s.jumpTo w).disp = s.disp ∧ (s.jumpTo w).dirty = s.dirty ∧
    (s.jumpTo w).keys = s.keys ∧ (s.jumpTo w).runState = s.runState ∧
    (s.jumpTo w).stopPending = s.stopPending ∧ (s.jumpTo w).outcome = some .advanced ∧
    (s.jumpTo w).outputs = s.outputs ∧ (s.jumpTo w).script = s.script ∧
    (s.jumpTo w).rndSupply = s.rndSupply ∧ (s.jumpTo w).draws = s.draws ∧
    (s.jumpTo w).turns = s.turns ∧ (s.jumpTo w).font = s.font := by
  simp [State.jumpTo]

@[simp] theorem State.advance_fields (s : State) :
    s.advance.mem = s.mem ∧ s.advance.v = s.v ∧ s.advance.i = s.i ∧ s.advance.pc = s.pc + 2#16 ∧
    s.advance.sp = s.sp ∧ s.advance.stack = s.stack ∧ s.advance.dt = s.dt ∧ s.advance.st = s.st ∧
    s.advance.disp = s.disp ∧ s.advance.dirty = s.dirty ∧ s.advance.keys = s.keys ∧
    s.advance.runState = s.runState ∧ s.advance.stopPending = s.stopPending ∧
    s.advance.outcome = some .advanced ∧ s.advance.outputs = s.outputs ∧ s.advance.script = s.script ∧
    s.advance.rndSupply = s.rndSupply ∧ s.advance.draws = s.draws ∧ s.advance.turns = s.turns ∧
    s.advance.font = s.font := by
  simp [State.advance]

@[simp] theorem State.skipIf_fields (s : State) (c : Bool) :
    (s.skipIf c).mem = s.mem ∧ (s.skipIf c).v = s.v ∧ (s.skipIf c).i = s.i ∧
    (s.skipIf c).pc = (if c then s.pc + 4#16 else s.pc + 2#16) ∧ (s.skipIf c).sp = s.sp ∧
    (s.skipIf c).stack = s.stack ∧ (s.skipIf c).dt = s.dt ∧ (s.skipIf c).st = s.st ∧
    (s.skipIf c).disp = s.disp ∧ (s.skipIf c).dirty = s.dirty ∧ (s.skipIf c).keys = s.keys ∧
    (s.skipIf c).runState = s.runState ∧ (s.skipIf c).stopPending = s.stopPending ∧
    (s.skipIf c).outcome = some .advanced ∧ (s.skipIf c).outputs = s.outputs ∧
    (s.skipIf c).script = s.script ∧ (s.skipIf c).rndSupply = s.rndSupply ∧
    (s.skipIf c).draws = s.draws ∧ (s.skipIf c).turns = s.turns ∧ (s.skipIf c).font = s.font := by
  simp [State.skipIf]

@[simp] theorem State.waitForKey_fields (s : State) :
    s.waitForKey.mem = s.mem ∧ s.waitForKey.v = s.v ∧ s.waitForKey.i = s.i ∧ s.waitForKey.pc = s.pc ∧
    s.waitForKey.sp = s.sp ∧ s.waitForKey.stack = s.stack ∧ s.waitForKey.dt = s.dt ∧
    s.waitForKey.st = s.st ∧ s.waitForKey.disp = s.disp ∧ s.waitForKey.dirty = s.dirty ∧
    s.waitForKey.keys = s.keys ∧ s.waitForKey.runState = s.runState ∧
    s.waitForKey.stopPending = s.stopPending ∧ s.waitForKey.outcome = some .waitingForKey ∧
    s.waitForKey.outputs = s.outputs ∧ s.waitForKey.script = s.script ∧
    s.waitForKey.rndSupply = s.rndSupply ∧ s.waitForKey.draws = s.draws ∧
    s.waitForKey.turns = s.turns ∧ s.waitForKey.font = s.font := by
  simp [State.waitForKey]

@[simp] theorem State.raiseFault_fields (s : State) (f : Fault) :
    (s.raiseFault f).mem = s.mem ∧ (s.raiseFault f).v = s.v ∧ (s.raiseFault f).i = s.i ∧
    (s.raiseFault f).pc = s.pc ∧ (s.raiseFault f).sp = s.sp ∧ (s.raiseFault f).stack = s.stack ∧
    (s.raiseFault f).dt = s.dt ∧ (s.raiseFault f).st = s.st ∧ (s.raiseFault f).disp = s.disp ∧
    (s.raiseFault f).dirty = s.dirty ∧ (s.raiseFault f).keys = s.keys ∧
    (s.raiseFault f).runState = .faulted f ∧ (s.raiseFault f).stopPending = s.stopPending ∧
    (s.raiseFault f).outcome = some (.faulted f) ∧ (s.raiseFault f).outputs = s.outputs ∧
    (s.raiseFault f).script = s.script ∧ (s.raiseFault f).rndSupply = s.rndSupply ∧
    (s.raiseFault f).draws = s.draws ∧ (s.raiseFault f).turns = s.turns ∧
    (s.raiseFault f).font = s.font := by
  simp [State.raiseFault]

@[simp] theorem State.afterDraw_fields (s : State) :
    s.afterDraw.mem = s.mem ∧ s.afterDraw.v = s.v ∧ s.afterDraw.i = s.i ∧ s.afterDraw.pc = s.pc ∧
    s.afterDraw.sp = s.sp ∧ s.afterDraw.stack = s.stack ∧ s.afterDraw.dt = s.dt ∧
    s.afterDraw.st = s.st ∧ s.afterDraw.disp = s.disp ∧ s.afterDraw.dirty = s.dirty ∧
    s.afterDraw.keys = s.keys ∧ s.afterDraw.runState = s.runState ∧
    s.afterDraw.stopPending = s.stopPending ∧ s.afterDraw.outcome = s.outcome ∧
    s.afterDraw.outputs = s.outputs ∧ s.afterDraw.script = s.script ∧
    s.afterDraw.rndSupply = s.rndSupply.tail ∧ s.afterDraw.draws = s.draws + 1 ∧
    s.afterDraw.turns = s.turns ∧ s.afterDraw.font = s.font := by
  simp [State.afterDraw]

@[simp] theorem State.push_fields (s : State) (w : Word) (h : s.sp.val < 64) :
    (s.push w h).mem = s.mem ∧ (s.push w h).v = s.v ∧ (s.push w h).i = s.i ∧ (s.push w h).pc = s.pc ∧
    (s.push w h).sp.val = s.sp.val + 1 ∧ (s.push w h).stack = s.stack.set s.sp.val w ∧
    (s.push w h).dt = s.dt ∧ (s.push w h).st = s.st ∧ (s.push w h).disp = s.disp ∧
    (s.push w h).dirty = s.dirty ∧ (s.push w h).keys = s.keys ∧
    (s.push w h).runState = s.runState ∧ (s.push w h).stopPending = s.stopPending ∧
    (s.push w h).outcome = s.outcome ∧ (s.push w h).outputs = s.outputs ∧
    (s.push w h).script = s.script ∧ (s.push w h).rndSupply = s.rndSupply ∧
    (s.push w h).draws = s.draws ∧ (s.push w h).turns = s.turns ∧ (s.push w h).font = s.font := by
  simp [State.push]

@[simp] theorem State.pop_fields (s : State) :
    s.pop.mem = s.mem ∧ s.pop.v = s.v ∧ s.pop.i = s.i ∧ s.pop.pc = s.pc ∧
    s.pop.sp.val = s.sp.val - 1 ∧ s.pop.stack = s.stack ∧ s.pop.dt = s.dt ∧ s.pop.st = s.st ∧
    s.pop.disp = s.disp ∧ s.pop.dirty = s.dirty ∧ s.pop.keys = s.keys ∧
    s.pop.runState = s.runState ∧ s.pop.stopPending = s.stopPending ∧ s.pop.outcome = s.outcome ∧
    s.pop.outputs = s.outputs ∧ s.pop.script = s.script ∧ s.pop.rndSupply = s.rndSupply ∧
    s.pop.draws = s.draws ∧ s.pop.turns = s.turns ∧ s.pop.font = s.font := by
  simp [State.pop]

@[simp] theorem State.bumpI_fields (s : State) (n : Nat) :
    (s.bumpI n).mem = s.mem ∧ (s.bumpI n).v = s.v ∧ (s.bumpI n).i = s.i + BitVec.ofNat 16 n ∧
    (s.bumpI n).pc = s.pc ∧ (s.bumpI n).sp = s.sp ∧ (s.bumpI n).stack = s.stack ∧
    (s.bumpI n).dt = s.dt ∧ (s.bumpI n).st = s.st ∧ (s.bumpI n).disp = s.disp ∧
    (s.bumpI n).dirty = s.dirty ∧ (s.bumpI n).keys = s.keys ∧
    (s.bumpI n).runState = s.runState ∧ (s.bumpI n).stopPending = s.stopPending ∧
    (s.bumpI n).outcome = s.outcome ∧ (s.bumpI n).outputs = s.outputs ∧
    (s.bumpI n).script = s.script ∧ (s.bumpI n).rndSupply = s.rndSupply ∧
    (s.bumpI n).draws = s.draws ∧ (s.bumpI n).turns = s.turns ∧ (s.bumpI n).font = s.font := by
  simp [State.bumpI]

@[simp] theorem State.storeAtI_fields (s : State) (bs : List Byte) :
    (s.storeAtI bs).mem = s.mem.writeBytes s.i.toNat bs ∧ (s.storeAtI bs).v = s.v ∧
    (s.storeAtI bs).i = s.i ∧ (s.storeAtI bs).pc = s.pc ∧ (s.storeAtI bs).sp = s.sp ∧
    (s.storeAtI bs).stack = s.stack ∧ (s.storeAtI bs).dt = s.dt ∧ (s.storeAtI bs).st = s.st ∧
    (s.storeAtI bs).disp = s.disp ∧ (s.storeAtI bs).dirty = s.dirty ∧
    (s.storeAtI bs).keys = s.keys ∧ (s.storeAtI bs).runState = s.runState ∧
    (s.storeAtI bs).stopPending = s.stopPending ∧ (s.storeAtI bs).outcome = s.outcome ∧
    (s.storeAtI bs).outputs = s.outputs ∧ (s.storeAtI bs).script = s.script ∧
    (s.storeAtI bs).rndSupply = s.rndSupply ∧ (s.storeAtI bs).draws = s.draws ∧
    (s.storeAtI bs).turns = s.turns ∧ (s.storeAtI bs).font = s.font := by
  simp [State.storeAtI]

@[simp] theorem State.takeCanvas_fields (s : State) (k : Canvas) :
    (s.takeCanvas k).mem = s.mem ∧
    (s.takeCanvas k).v = s.v.set vf.toNat (flagByte k.collision) ∧ (s.takeCanvas k).i = s.i ∧
    (s.takeCanvas k).pc = s.pc ∧ (s.takeCanvas k).sp = s.sp ∧ (s.takeCanvas k).stack = s.stack ∧
    (s.takeCanvas k).dt = s.dt ∧ (s.takeCanvas k).st = s.st ∧ (s.takeCanvas k).disp = k.disp ∧
    (s.takeCanvas k).dirty = (s.dirty || k.changed) ∧ (s.takeCanvas k).keys = s.keys ∧
    (s.takeCanvas k).runState = s.runState ∧ (s.takeCanvas k).stopPending = s.stopPending ∧
    (s.takeCanvas k).outcome = s.outcome ∧ (s.takeCanvas k).outputs = s.outputs ∧
    (s.takeCanvas k).script = s.script ∧ (s.takeCanvas k).rndSupply = s.rndSupply ∧
    (s.takeCanvas k).draws = s.draws ∧ (s.takeCanvas k).turns = s.turns ∧
    (s.takeCanvas k).font = s.font := by
  simp [State.takeCanvas]

@[simp] theorem State.writeResultFlag_fields (s : State) (x : Nibble) (r f : Byte) :
    (s.writeResultFlag x r f).mem = s.mem ∧
    (s.writeResultFlag x r f).v = (s.v.set x.toNat r).set vf.toNat f ∧
    (s.writeResultFlag x r f).i = s.i ∧ (s.writeResultFlag x r f).pc = s.pc ∧
    (s.writeResultFlag x r f).sp = s.sp ∧ (s.writeResultFlag x r f).stack = s.stack ∧
    (s.writeResultFlag x r f).dt = s.dt ∧ (s.writeResultFlag x r f).st = s.st ∧
    (s.writeResultFlag x r f).disp = s.disp ∧ (s.writeResultFlag x r f).dirty = s.dirty ∧
    (s.writeResultFlag x r f).keys = s.keys ∧ (s.writeResultFlag x r f).runState = s.runState ∧
    (s.writeResultFlag x r f).stopPending = s.stopPending ∧
    (s.writeResultFlag x r f).outcome = s.outcome ∧ (s.writeResultFlag x r f).outputs = s.outputs ∧
    (s.writeResultFlag x r f).script = s.script ∧
    (s.writeResultFlag x r f).rndSupply = s.rndSupply ∧ (s.writeResultFlag x r f).draws = s.draws ∧
    (s.writeResultFlag x r f).turns = s.turns ∧ (s.writeResultFlag x r f).font = s.font := by
  simp [State.writeResultFlag]

/-- A block load changes nothing but V registers (R166). -/
theorem State.loadFirst_only_regs (s : State) (n : Nat) :
    s.loadFirst n = { s with v := (s.loadFirst n).v } := by
  induction n with
  | zero => rfl
  | succ k ih =>
    rw [State.loadFirst, ih]
    simp [State.writeV]

@[simp] theorem State.loadFirst_fields (s : State) (n : Nat) :
    (s.loadFirst n).mem = s.mem ∧ (s.loadFirst n).i = s.i ∧ (s.loadFirst n).pc = s.pc ∧
    (s.loadFirst n).sp = s.sp ∧ (s.loadFirst n).stack = s.stack ∧ (s.loadFirst n).dt = s.dt ∧
    (s.loadFirst n).st = s.st ∧ (s.loadFirst n).disp = s.disp ∧ (s.loadFirst n).dirty = s.dirty ∧
    (s.loadFirst n).keys = s.keys ∧ (s.loadFirst n).runState = s.runState ∧
    (s.loadFirst n).stopPending = s.stopPending ∧ (s.loadFirst n).outcome = s.outcome ∧
    (s.loadFirst n).outputs = s.outputs ∧ (s.loadFirst n).script = s.script ∧
    (s.loadFirst n).rndSupply = s.rndSupply ∧ (s.loadFirst n).draws = s.draws ∧
    (s.loadFirst n).turns = s.turns ∧ (s.loadFirst n).font = s.font := by
  rw [s.loadFirst_only_regs n]
  simp

@[simp] theorem State.emit_fields (s : State) (o : Output) :
    (s.emit o).mem = s.mem ∧ (s.emit o).v = s.v ∧ (s.emit o).i = s.i ∧ (s.emit o).pc = s.pc ∧
    (s.emit o).sp = s.sp ∧ (s.emit o).stack = s.stack ∧ (s.emit o).dt = s.dt ∧
    (s.emit o).st = s.st ∧ (s.emit o).disp = s.disp ∧ (s.emit o).dirty = s.dirty ∧
    (s.emit o).keys = s.keys ∧ (s.emit o).runState = s.runState ∧
    (s.emit o).stopPending = s.stopPending ∧ (s.emit o).outcome = s.outcome ∧
    (s.emit o).outputs = o :: s.outputs ∧ (s.emit o).script = s.script ∧
    (s.emit o).rndSupply = s.rndSupply ∧ (s.emit o).draws = s.draws ∧ (s.emit o).turns = s.turns ∧
    (s.emit o).font = s.font := by
  simp [State.emit]

end Sys2Proof.Machine
end

