-- ==== Sys2Proof/Laws/Display.lean ====
section
/-! SUPPORT. Display cells: which cell an index names (R30, R180), and that a flip turns exactly its own
cell, and that a draw is a run of flips over distinct cells (R182). -/

namespace Sys2Proof.Machine

/-- Every cell index is one of the 2048 (R30, R180). -/
theorem cellIndex_lt (x y : Nat) : cellIndex x y < 2048 := by
  unfold cellIndex
  simp
  omega

/-- The column of a cell index (R30). -/
theorem cellIndex_mod (x y : Nat) : cellIndex x y % 64 = x % 64 := by
  unfold cellIndex
  simp

/-- The row of a cell index (R30). -/
theorem cellIndex_div (x y : Nat) : cellIndex x y / 64 = y % 32 := by
  unfold cellIndex
  simp
  omega

/-- Two cell indices agree exactly when columns and rows agree, each modulo its range (R180). -/
theorem cellIndex_inj (x y x' y' : Nat) :
    cellIndex x y = cellIndex x' y' ↔ x % 64 = x' % 64 ∧ y % 32 = y' % 32 := by
  constructor
  · intro h
    exact ⟨by rw [← cellIndex_mod x y, h, cellIndex_mod], by rw [← cellIndex_div x y, h, cellIndex_div]⟩
  · intro h
    simp [cellIndex, h.1, h.2]

/-- A flip turns its own cell and no other (R182). -/
theorem dispCell_flipDisp (d : Vector (BitVec 64) 32) (c c' : Nat) (hc : c < 2048) :
    dispCell (flipDisp d c) c' = (dispCell d c' ^^ decide (c' = c)) := by
  have hr : c / 64 < 32 := by omega
  unfold dispCell flipDisp
  simp only [Config.columns, Vector.toList_setIfInBounds, List.getD_eq_getElem?_getD, List.getElem?_set,
    Vector.length_toList]
  by_cases hrow : c / 64 = c' / 64
  · rw [if_pos hrow, if_pos (by omega), ← hrow]
    simp only [Option.getD_some, BitVec.getLsbD_xor, BitVec.getLsbD_twoPow]
    have : (decide (c % 64 < 64) && decide (c % 64 = c' % 64)) = decide (c' = c) := by
      have h64 : c % 64 < 64 := Nat.mod_lt _ (by omega)
      simp only [h64, decide_true, Bool.true_and, decide_eq_decide]
      omega
    rw [this]
  · rw [if_neg hrow]
    have : ¬ c' = c := fun e => hrow (by rw [e])
    simp [this]

/-- The cleared buffer has every cell off (R181). -/
theorem dispCell_clear (c : Nat) : dispCell (Vector.replicate 32 0) c = false := by
  unfold dispCell
  simp only [Config.columns, List.getD_eq_getElem?_getD, Vector.toList_replicate, List.getElem?_replicate]
  by_cases h : c / 64 < 32 <;> simp [h]

/-- The cells one sprite row flips, in column order (R182). -/
def rowCells (x0 y : Nat) (sprite : Byte) : List Nat :=
  ((List.range 8).filter fun col => sprite.getLsbD (7 - col)).map fun col => cellIndex (x0 + col) y

/-- The cells a draw of height n flips, row by row (R182). -/
def spriteCells (s : State) (x0 y0 n : Nat) : List Nat :=
  (List.range n).flatMap fun row => rowCells x0 (y0 + row) (s.readAtI row)

/-- A sprite row is a run of flips. -/
theorem Canvas.row_eq (x0 y : Nat) (sprite : Byte) (k : Canvas) :
    Canvas.row x0 y sprite k = (rowCells x0 y sprite).foldl Canvas.hit k := by
  unfold Canvas.row rowCells
  rw [List.foldl_map, List.foldl_filter]
  rfl

/-- A draw is a run of flips. -/
theorem Canvas.draw_eq (s : State) (x0 y0 : Nat) (k : Canvas) (n : Nat) :
    Canvas.draw s x0 y0 k n = (spriteCells s x0 y0 n).foldl Canvas.hit k := by
  unfold Canvas.draw spriteCells
  rw [List.foldl_flatMap]
  simp only [Canvas.row_eq]

/-- What a run of flips over distinct cells leaves: each of them turned once, a collision if one of them
was on, a change if there was one (R182). -/
theorem Canvas.hits (L : List Nat) (hn : L.Nodup) (hb : ∀ c ∈ L, c < 2048) (k : Canvas) :
    (∀ c, dispCell (L.foldl Canvas.hit k).disp c = (dispCell k.disp c ^^ decide (c ∈ L))) ∧
    (L.foldl Canvas.hit k).collision = (k.collision || L.any fun c => dispCell k.disp c) ∧
    (L.foldl Canvas.hit k).changed = (k.changed || !L.isEmpty) := by
  induction L generalizing k with
  | nil => simp
  | cons a L ih =>
    rw [List.nodup_cons] at hn
    have ha := hb a (by simp)
    have hcell : ∀ c ∈ L, dispCell (k.hit a).disp c = dispCell k.disp c := by
      intro c hc
      have hne : c ≠ a := fun e => hn.1 (e ▸ hc)
      simp [Canvas.hit, dispCell_flipDisp _ _ _ ha, hne]
    obtain ⟨h1, h2, h3⟩ := ih hn.2 (fun c hc => hb c (by simp [hc])) (k.hit a)
    refine ⟨fun c => ?_, ?_, ?_⟩
    · rw [List.foldl_cons, h1]
      simp only [Canvas.hit, dispCell_flipDisp _ _ _ ha]
      by_cases hc : c = a
      · subst hc; simp [hn.1]
      · simp [hc]
    · have hany : (L.any fun c => dispCell (k.hit a).disp c) = L.any fun c => dispCell k.disp c := by
        rw [Bool.eq_iff_iff, List.any_eq_true, List.any_eq_true]
        constructor <;> rintro ⟨c, hc, h⟩ <;> exact ⟨c, hc, by simpa [hcell c hc] using h⟩
      rw [List.foldl_cons, h2, hany]
      simp [Canvas.hit, Bool.or_assoc]
    · rw [List.foldl_cons, h3]
      simp [Canvas.hit]

end Sys2Proof.Machine
end

