-- ==== Sys2Proof/Laws/Invariant.lean ====
section
/-! SUPPORT. The two ways a state gets into the invariant: by taking a fault that tells the truth, and by a
change the invariant does not look at. -/

namespace Sys2Proof.Machine

/-- A fault tells the same of two states that agree in what it reads. -/
theorem FaultTruthful.congr {s t : State} {f : Fault} (hm : t.mem = s.mem) (hp : t.pc = s.pc)
    (hi : t.i = s.i) (hs : t.sp = s.sp) (hv : t.v = s.v) (h : FaultTruthful s f) : FaultTruthful t f := by
  cases f <;> simpa only [FaultTruthful, State.readV, hm, hp, hi, hs, hv] using h

/-- A truthful fault, taken in a state with canonical memory and bounded PC and stack, gives a state in the
invariant (R222). -/
theorem State.raiseFault_inv {s : State} {f : Fault} (hm : s.mem.wf = true) (hp : s.pc.toNat ≤ 0x10FE)
    (hs : ∀ w ∈ s.stack.toList, w.toNat ≤ 0x1000) (hf : FaultTruthful s f) : (s.raiseFault f).Inv where
  memCanonical := by simpa using hm
  pcBound := by simpa using hp
  stackBound := by simpa using hs
  faultOnPort g := by simp
  faultTold g hg := by
    have e : f = g := by simpa using hg
    exact e ▸ hf.congr (by simp) (by simp) (by simp) (by simp) (by simp)

/-- The invariant looks at memory, PC, I, SP, the registers, the stack, the run state and the outcome port,
and at nothing else. -/
theorem State.Inv.congr {s t : State} (h : s.Inv) (hm : t.mem = s.mem) (hp : t.pc = s.pc) (hi : t.i = s.i)
    (hs : t.sp = s.sp) (hv : t.v = s.v) (hk : t.stack = s.stack) (hr : t.runState = s.runState)
    (ho : t.outcome = s.outcome) : t.Inv where
  memCanonical := hm ▸ h.memCanonical
  pcBound := hp ▸ h.pcBound
  stackBound := hk ▸ h.stackBound
  faultOnPort f := by rw [hr, ho]; exact h.faultOnPort f
  faultTold f hf := (h.faultTold f (hr ▸ hf)).congr hm hp hi hs hv

end Sys2Proof.Machine
end

