-- ==== Sys2Proof/Laws/Regs.lean ====
section
/-! SUPPORT. Register reads after register writes (R21), the flag order (R130), the block load's loop
(R166) and the block store's bytes (R165). -/

namespace Sys2Proof.Machine

@[simp] theorem State.readV_of_v {s t : State} (h : t.v = s.v) (r : Nibble) : t.readV r = s.readV r := by
  simp [State.readV, h]

/-- A read after a register write (R21). -/
theorem State.readV_writeV (s : State) (r r' : Nibble) (b : Byte) :
    (s.writeV r b).readV r' = if r' = r then b else s.readV r' := by
  simp only [State.readV, State.writeV, Vector.getElem_set]
  by_cases h : r' = r
  · simp [h]
  · have : r.toNat ≠ r'.toNat := fun e => h (BitVec.eq_of_toNat_eq e.symm)
    simp [h, this]

@[simp] theorem State.readV_writeV_same (s : State) (r : Nibble) (b : Byte) :
    (s.writeV r b).readV r = b := by
  simp [State.readV_writeV]

/-- The flag is the value VF keeps, whatever x is; Vx keeps the result when x is not F (R22, R130). -/
theorem State.readV_writeResultFlag (s : State) (x r : Nibble) (res flag : Byte) :
    (s.writeResultFlag x res flag).readV r =
      if r = vf then flag else if r = x then res else s.readV r := by
  simp [State.writeResultFlag, State.readV_writeV]

@[simp] theorem State.readV_jumpTo (s : State) (w : Word) (r : Nibble) :
    (s.jumpTo w).readV r = s.readV r := rfl

@[simp] theorem State.readV_advance (s : State) (r : Nibble) : s.advance.readV r = s.readV r := rfl

@[simp] theorem State.readV_skipIf (s : State) (c : Bool) (r : Nibble) :
    (s.skipIf c).readV r = s.readV r := rfl

@[simp] theorem State.readV_bumpI (s : State) (n : Nat) (r : Nibble) :
    (s.bumpI n).readV r = s.readV r := rfl

@[simp] theorem State.readV_afterDraw (s : State) (r : Nibble) : s.afterDraw.readV r = s.readV r := rfl

/-- The registers after a block load of n bytes: Vk is Mem[I + k] below n, unchanged above (R166). -/
theorem State.readV_loadFirst (s : State) (n : Nat) (hn : n ≤ 16) (r : Nibble) :
    (s.loadFirst n).readV r = if r.toNat < n then s.readAtI r.toNat else s.readV r := by
  induction n with
  | zero => simp [State.loadFirst]
  | succ k ih =>
    rw [State.loadFirst, State.readV_writeV, ih (by omega)]
    have hk : (BitVec.ofNat 4 k).toNat = k := by simp; omega
    by_cases h : r = BitVec.ofNat 4 k
    · have h1 : r.toNat = k := by rw [h, hk]
      have h2 : r.toNat < k + 1 := by omega
      rw [if_pos h, if_pos h2, h1]
    · have : r.toNat ≠ k := fun e => h (BitVec.eq_of_toNat_eq (by rw [hk, e]))
      by_cases h2 : r.toNat < k
      · simp [h, h2, Nat.lt_succ_of_lt h2]
      · have h3 : ¬ r.toNat < k + 1 := by omega
        simp [h, h2, h3]

/-- A block store of n registers writes n bytes. -/
theorem State.firstRegs_length (s : State) (n : Nat) (hn : n ≤ 16) : (s.firstRegs n).length = n := by
  simp [State.firstRegs]
  omega

/-- Byte k of a block store is Vk, never Vx repeated (R165). -/
theorem State.firstRegs_get (s : State) (n k : Nat) (hn : n ≤ 16) (hk : k < n) :
    (s.firstRegs n)[k]? = some (s.readV (BitVec.ofNat 4 k)) := by
  have h16 : k < 16 := by omega
  simp [State.firstRegs, State.readV, hk, h16, Nat.mod_eq_of_lt h16]

end Sys2Proof.Machine
end

