-- ==== Sys2Proof/Laws/Meanings.lean ====
section
/-! SUPPORT. What a meaning can answer: every one answers a next state, and those with a bounds, stack or
key check answer one of two, each said once here. -/

namespace Sys2Proof.Machine

/-- RET takes the underflow fault or pops (R101). -/
theorem execRet_cases (s : State) :
    (s.sp.val = 0 ∧ exec .ret s = .next (s.raiseFault (.stackUnderflow s.pc (encode .ret)))) ∨
    (0 < s.sp.val ∧ exec .ret s = .next (s.pop.jumpTo s.top)) := by
  by_cases h : s.sp.val = 0
  · exact .inl ⟨h, by simp [exec, execRet, done, h]⟩
  · exact .inr ⟨by omega, by simp [exec, execRet, done, h]⟩

/-- CALL takes the overflow fault or pushes (R103). -/
theorem execCall_cases (nnn : Addr12) (s : State) :
    (s.sp.val = 64 ∧
      exec (.call nnn) s = .next (s.raiseFault (.stackOverflow s.pc (encode (.call nnn))))) ∨
    (∃ h : s.sp.val < 64,
      exec (.call nnn) s = .next ((s.push (s.pc + 2#16) h).jumpTo (addrWord nnn))) := by
  by_cases h : s.sp.val < 64
  · exact .inr ⟨h, by simp [exec, execCall, done, h]⟩
  · exact .inl ⟨by omega, by simp [exec, execCall, done, h]⟩

/-- Fx33 takes the write fault or stores three digits (R164). -/
theorem execLdB_cases (x : Nibble) (s : State) :
    (0xFFF < s.i.toNat + 2 ∧
      exec (.ldB x) s = .next (s.raiseFault (.writeOutOfBounds s.pc (encode (.ldB x)) s.lowestOut))) ∨
    (s.i.toNat + 2 ≤ 0xFFF ∧
      exec (.ldB x) s = .next (s.storeAtI (decimalDigits (s.readV x))).advance) := by
  by_cases h : s.i.toNat + 2 ≤ 0xFFF
  · exact .inr ⟨h, by simp [exec, execLdB, done, inBounds, State.effAddr, h]⟩
  · exact .inl ⟨by omega, by simp [exec, execLdB, done, inBounds, State.effAddr, h]⟩

/-- Fx55 takes the write fault or stores V0..Vx and moves I (R165). -/
theorem execStoreRegs_cases (x : Nibble) (s : State) :
    (0xFFF < s.i.toNat + x.toNat ∧
      exec (.storeRegs x) s =
        .next (s.raiseFault (.writeOutOfBounds s.pc (encode (.storeRegs x)) s.lowestOut))) ∨
    (s.i.toNat + x.toNat ≤ 0xFFF ∧
      exec (.storeRegs x) s =
        .next ((s.storeAtI (s.firstRegs (x.toNat + 1))).bumpI (x.toNat + 1)).advance) := by
  by_cases h : s.i.toNat + x.toNat ≤ 0xFFF
  · exact .inr ⟨h, by simp [exec, execStoreRegs, done, inBounds, State.effAddr, h]⟩
  · exact .inl ⟨by omega, by simp [exec, execStoreRegs, done, inBounds, State.effAddr, h]⟩

/-- Fx65 takes the read fault or loads V0..Vx and moves I (R166). -/
theorem execLoadRegs_cases (x : Nibble) (s : State) :
    (0xFFF < s.i.toNat + x.toNat ∧
      exec (.loadRegs x) s =
        .next (s.raiseFault (.readOutOfBounds s.pc (encode (.loadRegs x)) s.lowestOut))) ∨
    (s.i.toNat + x.toNat ≤ 0xFFF ∧
      exec (.loadRegs x) s = .next ((s.loadFirst (x.toNat + 1)).bumpI (x.toNat + 1)).advance) := by
  by_cases h : s.i.toNat + x.toNat ≤ 0xFFF
  · exact .inr ⟨h, by simp [exec, execLoadRegs, done, inBounds, State.effAddr, h]⟩
  · exact .inl ⟨by omega, by simp [exec, execLoadRegs, done, inBounds, State.effAddr, h]⟩

/-- Dxyn takes the read fault or draws (R182). -/
theorem execDrw_cases (x y n : Nibble) (s : State) :
    (0 < n.toNat ∧ 0xFFF < s.i.toNat + (n.toNat - 1) ∧
      exec (.drw x y n) s =
        .next (s.raiseFault (.readOutOfBounds s.pc (encode (.drw x y n)) s.lowestOut))) ∨
    ((n.toNat = 0 ∨ s.i.toNat + (n.toNat - 1) ≤ 0xFFF) ∧
      exec (.drw x y n) s = .next (s.takeCanvas (s.drawn x y n)).advance) := by
  by_cases h : n.toNat = 0 ∨ s.i.toNat + (n.toNat - 1) ≤ 0xFFF
  · refine .inr ⟨h, ?_⟩
    rcases h with h | h <;> simp [exec, execDrw, done, State.spriteInBounds, inBounds, State.effAddr, h]
  · have h1 : ¬ n.toNat = 0 := fun e => h (.inl e)
    have h2 : ¬ s.i.toNat + (n.toNat - 1) ≤ 0xFFF := fun e => h (.inr e)
    refine .inl ⟨by omega, by omega, ?_⟩
    simp [exec, execDrw, done, State.spriteInBounds, inBounds, State.effAddr, h1, h2]

/-- Ex9E takes the key-index fault or skips on a pressed key (R200). -/
theorem execSkp_cases (x : Nibble) (s : State) :
    (15 < (s.readV x).toNat ∧
      exec (.skp x) s =
        .next (s.raiseFault (.keyIndexOutOfRange s.pc (encode (.skp x)) (s.readV x)))) ∨
    ((s.readV x).toNat ≤ 15 ∧ exec (.skp x) s = .next (s.skipIf (s.keyDown (s.readV x)))) := by
  by_cases h : (s.readV x).toNat ≤ 15
  · exact .inr ⟨h, by simp [exec, execSkp, done, isKeyIndex, h]⟩
  · exact .inl ⟨by omega, by simp [exec, execSkp, done, isKeyIndex, h]⟩

/-- ExA1 takes the key-index fault or skips on a key not pressed (R201). -/
theorem execSknp_cases (x : Nibble) (s : State) :
    (15 < (s.readV x).toNat ∧
      exec (.sknp x) s =
        .next (s.raiseFault (.keyIndexOutOfRange s.pc (encode (.sknp x)) (s.readV x)))) ∨
    ((s.readV x).toNat ≤ 15 ∧ exec (.sknp x) s = .next (s.skipIf (!s.keyDown (s.readV x)))) := by
  by_cases h : (s.readV x).toNat ≤ 15
  · exact .inr ⟨h, by simp [exec, execSknp, done, isKeyIndex, h]⟩
  · exact .inl ⟨by omega, by simp [exec, execSknp, done, isKeyIndex, h]⟩

/-- Fx0A waits or takes the highest-indexed pressed key (R203). -/
theorem execLdVxK_cases (x : Nibble) (s : State) :
    (highestKey s.keys = none ∧ exec (.ldVxK x) s = .next s.waitForKey) ∨
    (∃ k, highestKey s.keys = some k ∧ exec (.ldVxK x) s = .next (s.writeV x k).advance) := by
  cases h : highestKey s.keys with
  | none => exact .inl ⟨rfl, by simp [exec, execLdVxK, done, h]⟩
  | some k => exact .inr ⟨k, rfl, by simp [exec, execLdVxK, done, h]⟩

/-- The search below k finds no key exactly when no key below k is pressed (R203). -/
theorem highestBelow_none (keys : BitVec 16) (k : Nat) :
    highestBelow keys k = none ↔ ∀ j, j < k → keys.getLsbD j = false := by
  induction k with
  | zero => simp [highestBelow]
  | succ n ih =>
    simp only [highestBelow]
    by_cases h : keys.getLsbD n = true
    · simp only [h, if_true]
      constructor
      · intro e; cases e
      · intro e; rw [e n (by omega)] at h; cases h
    · simp only [h, if_false, Bool.false_eq_true]
      rw [ih]
      constructor
      · intro e j hj
        by_cases hjn : j = n
        · subst hjn; simpa using h
        · exact e j (by omega)
      · intro e j hj; exact e j (by omega)

/-- The key found below k is pressed, and no pressed key below k is above it (R203). -/
theorem highestBelow_some (keys : BitVec 16) {k : Nat} (hk : k ≤ 16) {b : Byte}
    (h : highestBelow keys k = some b) :
    b.toNat < k ∧ keys.getLsbD b.toNat = true ∧
      ∀ j, b.toNat < j → j < k → keys.getLsbD j = false := by
  induction k with
  | zero => simp [highestBelow] at h
  | succ n ih =>
    simp only [highestBelow] at h
    by_cases hn : keys.getLsbD n = true
    · simp only [hn, if_true, Option.some.injEq] at h
      have hb : b.toNat = n := by rw [← h]; simp; omega
      refine ⟨by omega, by rw [hb]; exact hn, fun j h1 h2 => by omega⟩
    · simp only [hn, if_false, Bool.false_eq_true] at h
      obtain ⟨h1, h2, h3⟩ := ih (by omega) h
      refine ⟨by omega, h2, fun j hj1 hj2 => ?_⟩
      by_cases hjn : j = n
      · subst hjn; simpa using hn
      · exact h3 j hj1 (by omega)

end Sys2Proof.Machine
end

