-- ==== Sys2Proof/Laws/Memory.lean ====
section
/-! SUPPORT. Memory: a read after a write, byte by byte and for a run of bytes, and that every write
keeps the canonical form. -/

namespace Sys2Proof.Machine

/-- An unlisted address reads as zero above the font (R38). -/
theorem background_above_font {a : Nat} (h : 80 ≤ a) : background a = 0 := by
  simp [background, Nat.not_lt.mpr h]

/-- Below the lower bound of a canonical list an address reads as unlisted. -/
theorem Memory.read_below {m : Memory} {lo a : Nat} (h : m.wfFrom lo = true) (ha : a < lo) :
    m.read a = background a := by
  induction m generalizing lo with
  | nil => rfl
  | cons p rest ih =>
    obtain ⟨b, u⟩ := p
    simp only [Memory.wfFrom, Bool.and_eq_true, decide_eq_true_eq] at h
    obtain ⟨⟨⟨hlo, _⟩, _⟩, hrest⟩ := h
    have hne : a ≠ b := by omega
    simp only [Memory.read, if_neg hne]
    exact ih hrest (by omega)

/-- A canonical list is canonical above any lower bound. -/
theorem Memory.wfFrom_mono {m : Memory} {lo lo' : Nat} (h : m.wfFrom lo = true) (hl : lo' ≤ lo) :
    m.wfFrom lo' = true := by
  cases m with
  | nil => rfl
  | cons p rest =>
    obtain ⟨b, u⟩ := p
    simp only [Memory.wfFrom, Bool.and_eq_true, decide_eq_true_eq] at h ⊢
    exact ⟨⟨⟨by omega, h.1.1.2⟩, h.1.2⟩, h.2⟩

theorem Memory.wfFrom_put {rest : Memory} {lo a : Nat} {val : Byte} (hlo : lo ≤ a)
    (ha : a ≤ 0xFFF) (h : rest.wfFrom (a + 1) = true) :
    (Memory.put a val rest).wfFrom lo = true := by
  unfold Memory.put
  split
  · exact Memory.wfFrom_mono h (by omega)
  · next hne =>
    simp only [Memory.wfFrom, Bool.and_eq_true, decide_eq_true_eq]
    exact ⟨⟨⟨hlo, ha⟩, hne⟩, h⟩

theorem Memory.wfFrom_write {m : Memory} {lo a : Nat} {val : Byte} (h : m.wfFrom lo = true)
    (hlo : lo ≤ a) (ha : a ≤ 0xFFF) : (m.write a val).wfFrom lo = true := by
  induction m generalizing lo with
  | nil => exact Memory.wfFrom_put hlo ha rfl
  | cons p rest ih =>
    obtain ⟨b, u⟩ := p
    simp only [Memory.wfFrom, Bool.and_eq_true, decide_eq_true_eq] at h
    obtain ⟨⟨⟨hb, hbl⟩, hne⟩, hrest⟩ := h
    simp only [Memory.write]
    split
    · next hab =>
      apply Memory.wfFrom_put hlo ha
      simp only [Memory.wfFrom, Bool.and_eq_true, decide_eq_true_eq]
      exact ⟨⟨⟨by omega, hbl⟩, hne⟩, hrest⟩
    · split
      · next hab => subst hab; exact Memory.wfFrom_put hlo ha hrest
      · simp only [Memory.wfFrom, Bool.and_eq_true, decide_eq_true_eq]
        exact ⟨⟨⟨hb, hbl⟩, hne⟩, ih hrest (by omega)⟩

/-- A write in bounds keeps the canonical form (R54). -/
theorem Memory.wf_write {m : Memory} (h : m.wf = true) {a : Nat} (ha : a ≤ 0xFFF) (val : Byte) :
    (m.write a val).wf = true :=
  Memory.wfFrom_write h (Nat.zero_le a) ha

theorem Memory.read_put {rest : Memory} {lo a : Nat} {val : Byte} (h : rest.wfFrom lo = true)
    (hlo : a < lo) (b : Nat) :
    (Memory.put a val rest).read b = if b = a then val else rest.read b := by
  unfold Memory.put
  split
  · next hval =>
    split
    · next hba => subst hba; rw [hval]; exact Memory.read_below h hlo
    · rfl
  · rfl

theorem Memory.read_write_from {m : Memory} {lo : Nat} (h : m.wfFrom lo = true) (a : Nat) (val : Byte)
    (b : Nat) : (m.write a val).read b = if b = a then val else m.read b := by
  induction m generalizing lo with
  | nil => exact Memory.read_put (lo := a + 1) rfl (Nat.lt_succ_self a) b
  | cons p rest ih =>
    obtain ⟨c, u⟩ := p
    simp only [Memory.wfFrom, Bool.and_eq_true, decide_eq_true_eq] at h
    obtain ⟨⟨⟨_, hcl⟩, hne⟩, hrest⟩ := h
    simp only [Memory.write]
    split
    · next hac =>
      have hm : Memory.wfFrom c ((c, u) :: rest) = true := by
        simp only [Memory.wfFrom, Bool.and_eq_true, decide_eq_true_eq]
        exact ⟨⟨⟨Nat.le_refl c, hcl⟩, hne⟩, hrest⟩
      exact Memory.read_put hm hac b
    · split
      · next hac =>
        subst hac
        rw [Memory.read_put hrest (Nat.lt_succ_self a)]
        by_cases hb : b = a <;> simp [Memory.read, hb]
      · next hnlt hac =>
        simp only [Memory.read]
        by_cases hbc : b = c
        · simp [hbc, Ne.symm hac]
        · simp [hbc, ih hrest]

/-- A read after a write: the byte written at its address, what was there elsewhere (R54, R59). -/
theorem Memory.read_write {m : Memory} (h : m.wf = true) (a : Nat) (val : Byte) (b : Nat) :
    (m.write a val).read b = if b = a then val else m.read b :=
  Memory.read_write_from h a val b

/-- A run of bytes in bounds keeps the canonical form. -/
theorem Memory.wf_writeBytes {m : Memory} (h : m.wf = true) {a : Nat} {bs : List Byte}
    (hb : a + bs.length ≤ 4096) : (m.writeBytes a bs).wf = true := by
  induction bs generalizing m a with
  | nil => exact h
  | cons val rest ih =>
    simp only [List.length_cons] at hb
    exact ih (Memory.wf_write h (by omega) val) (by omega)

/-- A read after a run of bytes is written: the run's byte inside it, what was there outside. -/
theorem Memory.read_writeBytes {m : Memory} (h : m.wf = true) {a : Nat} {bs : List Byte}
    (hb : a + bs.length ≤ 4096) (b : Nat) :
    (m.writeBytes a bs).read b =
      if a ≤ b ∧ b < a + bs.length then bs.getD (b - a) 0 else m.read b := by
  induction bs generalizing m a with
  | nil =>
    simp [Memory.writeBytes]
  | cons val rest ih =>
    simp only [List.length_cons] at hb
    have hw := Memory.wf_write h (a := a) (by omega) val
    simp only [Memory.writeBytes]
    rw [ih hw (by omega), Memory.read_write h]
    simp only [List.length_cons]
    by_cases h1 : b = a
    · subst h1
      simp
    · by_cases h2 : a + 1 ≤ b ∧ b < a + 1 + rest.length
      · have h3 : a ≤ b ∧ b < a + (rest.length + 1) := by omega
        obtain ⟨k, hk⟩ : ∃ k, b - a = k + 1 := ⟨b - a - 1, by omega⟩
        have h4 : b - (a + 1) = k := by omega
        rw [if_pos h2, if_pos h3, hk, h4]
        rfl
      · have h3 : ¬ (a ≤ b ∧ b < a + (rest.length + 1)) := by omega
        rw [if_neg h2, if_neg h3, if_neg h1]

/-- The fetched word is the two bytes at PC, the first one high (R55, R73). -/
theorem State.fetch_eq (s : State) :
    s.fetch = if s.pc.toNat ≤ 0xFFE then some [s.mem.read s.pc.toNat, s.mem.read (s.pc.toNat + 1)]
      else none := rfl

end Sys2Proof.Machine
end

