-- ==== Sys2Proof/Laws/PerInstr.lean ====
section
/-! SUPPORT. The family Encoding, instruction by instruction: the word of an instruction has the fixed
bits its row of the opcode map asks for (R74, R77). -/

namespace Sys2Proof

theorem fmtA12_and (f g : Nibble) (a b : Addr12) :
    fmtA12 f a &&& fmtA12 g b = fmtA12 (f &&& g) (a &&& b) := by
  apply BitVec.eq_of_getLsbD_eq; intro k _
  simp only [BitVec.getLsbD_and, fmtA12_bit]
  split <;> rfl

theorem fmtXKK_and (f x g x' : Nibble) (kk kk' : Byte) :
    fmtXKK f x kk &&& fmtXKK g x' kk' = fmtXKK (f &&& g) (x &&& x') (kk &&& kk') := by
  apply BitVec.eq_of_getLsbD_eq; intro k _
  simp only [BitVec.getLsbD_and, fmtXKK_bit]
  split <;> (try split) <;> rfl

theorem fmtXYN_and (f x y n g x' y' n' : Nibble) :
    fmtXYN f x y n &&& fmtXYN g x' y' n' = fmtXYN (f &&& g) (x &&& x') (y &&& y') (n &&& n') := by
  apply BitVec.eq_of_getLsbD_eq; intro k _
  simp only [BitVec.getLsbD_and, fmtXYN_bit]
  split <;> (try split) <;> (try split) <;> rfl

/-- The mask 0xF000 keeps the family digit of a word (R77). -/
theorem mask_family_A12 (f : Nibble) (a : Addr12) : fmtA12 f a &&& 0xF000#16 = fmtA12 f 0 := by
  rw [show (0xF000#16 : Word) = fmtA12 0xF 0 from by decide, fmtA12_and]
  congr 1
  · revert f; decide
  · simp

theorem mask_family_XKK (f x : Nibble) (kk : Byte) : fmtXKK f x kk &&& 0xF000#16 = fmtXKK f 0 0 := by
  rw [show (0xF000#16 : Word) = fmtXKK 0xF 0 0 from by decide, fmtXKK_and]
  congr 1
  · revert f; decide
  · simp
  · simp

theorem mask_family_XYN (f x y n : Nibble) : fmtXYN f x y n &&& 0xF000#16 = fmtXYN f 0 0 0 := by
  rw [show (0xF000#16 : Word) = fmtXYN 0xF 0 0 0 from by decide, fmtXYN_and]
  congr 1
  · revert f; decide
  · simp
  · simp
  · simp

/-- The mask 0xF00F keeps the family digit and the low nibble (R77). -/
theorem mask_family_low (f x y n : Nibble) : fmtXYN f x y n &&& 0xF00F#16 = fmtXYN f 0 0 n := by
  rw [show (0xF00F#16 : Word) = fmtXYN 0xF 0 0 0xF from by decide, fmtXYN_and]
  congr 1
  · revert f; decide
  · simp
  · simp
  · revert n; decide

/-- The mask 0xF0FF keeps the family digit and the low byte (R77). -/
theorem mask_family_byte (f x : Nibble) (kk : Byte) : fmtXKK f x kk &&& 0xF0FF#16 = fmtXKK f 0 kk := by
  rw [show (0xF0FF#16 : Word) = fmtXKK 0xF 0 0xFF from by decide, fmtXKK_and]
  congr 1
  · revert f; decide
  · simp
  · revert kk; decide

/-- The word of the instruction fits its row (R74). -/
def Laws.Encoding.Statement (i : Instr) : Prop := encode i &&& i.row.mask = i.row.pattern

theorem Laws.Encoding.cls : Laws.Encoding.Statement .cls := rfl

theorem Laws.Encoding.ret : Laws.Encoding.Statement .ret := rfl

theorem Laws.Encoding.jp (nnn : Addr12) : Laws.Encoding.Statement (.jp nnn) :=
  (mask_family_A12 _ _).trans rfl

theorem Laws.Encoding.call (nnn : Addr12) : Laws.Encoding.Statement (.call nnn) :=
  (mask_family_A12 _ _).trans rfl

theorem Laws.Encoding.seByte (x : Nibble) (kk : Byte) : Laws.Encoding.Statement (.seByte x kk) :=
  (mask_family_XKK _ _ _).trans rfl

theorem Laws.Encoding.sneByte (x : Nibble) (kk : Byte) : Laws.Encoding.Statement (.sneByte x kk) :=
  (mask_family_XKK _ _ _).trans rfl

theorem Laws.Encoding.seReg (x y : Nibble) : Laws.Encoding.Statement (.seReg x y) :=
  (mask_family_low _ _ _ _).trans rfl

theorem Laws.Encoding.ldByte (x : Nibble) (kk : Byte) : Laws.Encoding.Statement (.ldByte x kk) :=
  (mask_family_XKK _ _ _).trans rfl

theorem Laws.Encoding.addByte (x : Nibble) (kk : Byte) : Laws.Encoding.Statement (.addByte x kk) :=
  (mask_family_XKK _ _ _).trans rfl

theorem Laws.Encoding.ldReg (x y : Nibble) : Laws.Encoding.Statement (.ldReg x y) :=
  (mask_family_low _ _ _ _).trans rfl

theorem Laws.Encoding.orReg (x y : Nibble) : Laws.Encoding.Statement (.orReg x y) :=
  (mask_family_low _ _ _ _).trans rfl

theorem Laws.Encoding.andReg (x y : Nibble) : Laws.Encoding.Statement (.andReg x y) :=
  (mask_family_low _ _ _ _).trans rfl

theorem Laws.Encoding.xorReg (x y : Nibble) : Laws.Encoding.Statement (.xorReg x y) :=
  (mask_family_low _ _ _ _).trans rfl

theorem Laws.Encoding.addReg (x y : Nibble) : Laws.Encoding.Statement (.addReg x y) :=
  (mask_family_low _ _ _ _).trans rfl

theorem Laws.Encoding.subReg (x y : Nibble) : Laws.Encoding.Statement (.subReg x y) :=
  (mask_family_low _ _ _ _).trans rfl

theorem Laws.Encoding.shr (x y : Nibble) : Laws.Encoding.Statement (.shr x y) :=
  (mask_family_low _ _ _ _).trans rfl

theorem Laws.Encoding.subnReg (x y : Nibble) : Laws.Encoding.Statement (.subnReg x y) :=
  (mask_family_low _ _ _ _).trans rfl

theorem Laws.Encoding.shl (x y : Nibble) : Laws.Encoding.Statement (.shl x y) :=
  (mask_family_low _ _ _ _).trans rfl

theorem Laws.Encoding.sneReg (x y : Nibble) : Laws.Encoding.Statement (.sneReg x y) :=
  (mask_family_low _ _ _ _).trans rfl

theorem Laws.Encoding.ldI (nnn : Addr12) : Laws.Encoding.Statement (.ldI nnn) :=
  (mask_family_A12 _ _).trans rfl

theorem Laws.Encoding.jpV0 (nnn : Addr12) : Laws.Encoding.Statement (.jpV0 nnn) :=
  (mask_family_A12 _ _).trans rfl

theorem Laws.Encoding.rnd (x : Nibble) (kk : Byte) : Laws.Encoding.Statement (.rnd x kk) :=
  (mask_family_XKK _ _ _).trans rfl

theorem Laws.Encoding.drw (x y n : Nibble) : Laws.Encoding.Statement (.drw x y n) :=
  (mask_family_XYN _ _ _ _).trans rfl

theorem Laws.Encoding.skp (x : Nibble) : Laws.Encoding.Statement (.skp x) :=
  (mask_family_byte _ _ _).trans rfl

theorem Laws.Encoding.sknp (x : Nibble) : Laws.Encoding.Statement (.sknp x) :=
  (mask_family_byte _ _ _).trans rfl

theorem Laws.Encoding.ldVxDT (x : Nibble) : Laws.Encoding.Statement (.ldVxDT x) :=
  (mask_family_byte _ _ _).trans rfl

theorem Laws.Encoding.ldVxK (x : Nibble) : Laws.Encoding.Statement (.ldVxK x) :=
  (mask_family_byte _ _ _).trans rfl

theorem Laws.Encoding.ldDTVx (x : Nibble) : Laws.Encoding.Statement (.ldDTVx x) :=
  (mask_family_byte _ _ _).trans rfl

theorem Laws.Encoding.ldSTVx (x : Nibble) : Laws.Encoding.Statement (.ldSTVx x) :=
  (mask_family_byte _ _ _).trans rfl

theorem Laws.Encoding.addI (x : Nibble) : Laws.Encoding.Statement (.addI x) :=
  (mask_family_byte _ _ _).trans rfl

theorem Laws.Encoding.ldF (x : Nibble) : Laws.Encoding.Statement (.ldF x) :=
  (mask_family_byte _ _ _).trans rfl

theorem Laws.Encoding.ldB (x : Nibble) : Laws.Encoding.Statement (.ldB x) :=
  (mask_family_byte _ _ _).trans rfl

theorem Laws.Encoding.storeRegs (x : Nibble) : Laws.Encoding.Statement (.storeRegs x) :=
  (mask_family_byte _ _ _).trans rfl

theorem Laws.Encoding.loadRegs (x : Nibble) : Laws.Encoding.Statement (.loadRegs x) :=
  (mask_family_byte _ _ _).trans rfl

end Sys2Proof
end

