-- ==== Sys2Proof/Laws/Ports.lean ====
section
/-! SUPPORT. The host's events and the core's outputs: what a tick, the redraw point, the stop point, a
key event, a reset and a load leave, field by field, and that the tick point is k ticks. -/

namespace Sys2Proof.Machine

/-- A tick that finds both counters at zero does nothing (R230). -/
theorem State.tick_idle {s : State} (hd : s.dt = 0) (hs : s.st = 0) : s.tick = s := by
  simp [State.tick, State.tickDelay, State.tickSound, hd, hs]

theorem State.tickMany_idle {s : State} (hd : s.dt = 0) (hs : s.st = 0) (k : Nat) : s.tickMany k = s := by
  induction k with
  | zero => rfl
  | succ n ih => rw [State.tickMany, State.tick_idle hd hs, ih]

/-- The tick point is k ticks, one after another (R240 step b). -/
theorem State.tickPoint_eq (s : State) (k : Nat) : s.tickPoint k = s.tickMany k := by
  unfold State.tickPoint
  split
  · next h => rw [State.tickMany_idle h.1 h.2]
  · rfl

/-- A tick writes the timers and the beep output, nothing else (R230). -/
theorem State.tick_only_timers (s : State) :
    s.tick = { s with dt := s.tick.dt, st := s.tick.st, outputs := s.tick.outputs } := by
  unfold State.tick State.tickDelay State.tickSound
  split <;> split <;> (try split) <;> rfl

theorem State.tickMany_only_timers (s : State) (k : Nat) :
    s.tickMany k =
      { s with dt := (s.tickMany k).dt, st := (s.tickMany k).st, outputs := (s.tickMany k).outputs } := by
  induction k generalizing s with
  | zero => rfl
  | succ n ih =>
    have h := ih s.tick
    rw [State.tick_only_timers s] at h
    rw [State.tickMany, State.tick_only_timers s]
    exact h

@[simp] theorem State.tickPoint_fields (s : State) (k : Nat) :
    (s.tickPoint k).mem = s.mem ∧ (s.tickPoint k).v = s.v ∧ (s.tickPoint k).i = s.i ∧
    (s.tickPoint k).pc = s.pc ∧ (s.tickPoint k).sp = s.sp ∧ (s.tickPoint k).stack = s.stack ∧
    (s.tickPoint k).disp = s.disp ∧ (s.tickPoint k).dirty = s.dirty ∧
    (s.tickPoint k).keys = s.keys ∧ (s.tickPoint k).runState = s.runState ∧
    (s.tickPoint k).stopPending = s.stopPending ∧ (s.tickPoint k).outcome = s.outcome ∧
    (s.tickPoint k).script = s.script ∧ (s.tickPoint k).rndSupply = s.rndSupply ∧
    (s.tickPoint k).draws = s.draws ∧ (s.tickPoint k).turns = s.turns ∧
    (s.tickPoint k).font = s.font := by
  rw [State.tickPoint_eq, State.tickMany_only_timers]
  simp

/-- The redraw point writes Dirty and the redraw output, nothing else (R235). -/
theorem State.redrawPoint_only_dirty (s : State) :
    s.redrawPoint = { s with dirty := false, outputs := s.redrawPoint.outputs } := by
  unfold State.redrawPoint
  split
  · rfl
  · next h => simp at h; rw [← h]

@[simp] theorem State.redrawPoint_fields (s : State) :
    s.redrawPoint.mem = s.mem ∧ s.redrawPoint.v = s.v ∧ s.redrawPoint.i = s.i ∧
    s.redrawPoint.pc = s.pc ∧ s.redrawPoint.sp = s.sp ∧ s.redrawPoint.stack = s.stack ∧
    s.redrawPoint.dt = s.dt ∧ s.redrawPoint.st = s.st ∧ s.redrawPoint.disp = s.disp ∧
    s.redrawPoint.dirty = false ∧ s.redrawPoint.keys = s.keys ∧
    s.redrawPoint.runState = s.runState ∧ s.redrawPoint.stopPending = s.stopPending ∧
    s.redrawPoint.outcome = s.outcome ∧ s.redrawPoint.script = s.script ∧
    s.redrawPoint.rndSupply = s.rndSupply ∧ s.redrawPoint.draws = s.draws ∧
    s.redrawPoint.turns = s.turns ∧ s.redrawPoint.font = s.font := by
  rw [State.redrawPoint_only_dirty]
  simp

theorem State.redrawPoint_outputs (s : State) :
    s.redrawPoint.outputs = if s.dirty then .redraw s.disp :: s.outputs else s.outputs := by
  unfold State.redrawPoint
  split <;> rfl

/-- The stop point writes the run state and the latch, nothing else (R238). -/
theorem State.stopPoint_only_run (s : State) :
    s.stopPoint =
      { s with runState := if s.stopPending then .stopped else s.runState, stopPending := false } := by
  unfold State.stopPoint
  cases hp : s.stopPending with
  | true => rfl
  | false => cases s; simp only at hp; subst hp; rfl

@[simp] theorem State.stopPoint_fields (s : State) :
    s.stopPoint.mem = s.mem ∧ s.stopPoint.v = s.v ∧ s.stopPoint.i = s.i ∧ s.stopPoint.pc = s.pc ∧
    s.stopPoint.sp = s.sp ∧ s.stopPoint.stack = s.stack ∧ s.stopPoint.dt = s.dt ∧
    s.stopPoint.st = s.st ∧ s.stopPoint.disp = s.disp ∧ s.stopPoint.dirty = s.dirty ∧
    s.stopPoint.keys = s.keys ∧
    s.stopPoint.runState = (if s.stopPending then .stopped else s.runState) ∧
    s.stopPoint.stopPending = false ∧ s.stopPoint.outcome = s.outcome ∧
    s.stopPoint.outputs = s.outputs ∧ s.stopPoint.script = s.script ∧
    s.stopPoint.rndSupply = s.rndSupply ∧ s.stopPoint.draws = s.draws ∧
    s.stopPoint.turns = s.turns ∧ s.stopPoint.font = s.font := by
  rw [State.stopPoint_only_run]
  simp

@[simp] theorem State.keyEvent_fields (s : State) (k : Nibble) (p : Bool) :
    (s.keyEvent k p).mem = s.mem ∧ (s.keyEvent k p).v = s.v ∧ (s.keyEvent k p).i = s.i ∧
    (s.keyEvent k p).pc = s.pc ∧ (s.keyEvent k p).sp = s.sp ∧ (s.keyEvent k p).stack = s.stack ∧
    (s.keyEvent k p).dt = s.dt ∧ (s.keyEvent k p).st = s.st ∧ (s.keyEvent k p).disp = s.disp ∧
    (s.keyEvent k p).dirty = s.dirty ∧ (s.keyEvent k p).keys = setKeyBit s.keys k p ∧
    (s.keyEvent k p).runState = s.runState ∧ (s.keyEvent k p).stopPending = s.stopPending ∧
    (s.keyEvent k p).outcome = s.outcome ∧ (s.keyEvent k p).outputs = s.outputs ∧
    (s.keyEvent k p).script = s.script ∧ (s.keyEvent k p).rndSupply = s.rndSupply ∧
    (s.keyEvent k p).draws = s.draws ∧ (s.keyEvent k p).turns = s.turns ∧
    (s.keyEvent k p).font = s.font := by
  simp [State.keyEvent]

@[simp] theorem State.requestStop_fields (s : State) :
    s.requestStop.mem = s.mem ∧ s.requestStop.v = s.v ∧ s.requestStop.i = s.i ∧
    s.requestStop.pc = s.pc ∧ s.requestStop.sp = s.sp ∧ s.requestStop.stack = s.stack ∧
    s.requestStop.dt = s.dt ∧ s.requestStop.st = s.st ∧ s.requestStop.disp = s.disp ∧
    s.requestStop.dirty = s.dirty ∧ s.requestStop.keys = s.keys ∧
    s.requestStop.runState = s.runState ∧ s.requestStop.stopPending = true ∧
    s.requestStop.outcome = s.outcome ∧ s.requestStop.outputs = s.outputs ∧
    s.requestStop.script = s.script ∧ s.requestStop.rndSupply = s.rndSupply ∧
    s.requestStop.draws = s.draws ∧ s.requestStop.turns = s.turns ∧
    s.requestStop.font = s.font := by
  simp [State.requestStop]

/-- Reset's memory is canonical, whatever FONT is (R260). -/
theorem State.resetCore_mem_wf (s : State) : s.resetCore.mem.wf = true :=
  Memory.wf_writeBytes (m := []) rfl (by simp)

/-- The memory after an accepted load is canonical (R262). -/
theorem State.loadImage_mem_wf {s : State} {bytes : List Byte} (h : imageWf bytes = true) :
    (s.loadImage bytes).mem.wf = true := by
  have hl : bytes.length ≤ 3584 := by simp [imageWf] at h; omega
  simp only [State.loadImage, h, if_true, State.emit_fields]
  exact Memory.wf_writeBytes s.resetCore_mem_wf (by simp; omega)

end Sys2Proof.Machine
end

