-- ==== Sys2Proof/Laws/Step.lean ====
section
/-! SUPPORT. What a step can do: one inversion lemma for the instruction step and one for the step. -/

namespace Sys2Proof.Machine

/-- Decoding the two fetched bytes is decoding their word (R55, R73, R74). -/
theorem decode_pair (hi lo : Byte) :
    decode [hi, lo] =
      match decodeWord (wordOfBytes hi lo) with
      | some i => .instr i []
      | none => .unmatched (wordOfBytes hi lo) := rfl

/-- The instruction step faults on the fetch, runs the instruction the word at PC decodes to, or advances
over an unmatched opcode (R73, R74, R78). -/
theorem runInstruction_cases (s : State) :
    (0xFFE < s.pc.toNat ∧ runInstruction s = .next (s.raiseFault (.fetchOutOfBounds s.pc))) ∨
    (s.pc.toNat ≤ 0xFFE ∧ ∃ i, decodeWord (s.mem.word s.pc.toNat) = some i ∧
      runInstruction s = exec i s) ∨
    (s.pc.toNat ≤ 0xFFE ∧ decodeWord (s.mem.word s.pc.toNat) = none ∧
      runInstruction s = .next s.advance) := by
  by_cases h : s.pc.toNat ≤ 0xFFE
  · have hf : s.fetch = some [s.mem.read s.pc.toNat, s.mem.read (s.pc.toNat + 1)] := by
      simp [State.fetch, h]
    cases hd : decodeWord (s.mem.word s.pc.toNat) with
    | some i =>
      refine .inr (.inl ⟨h, i, rfl, ?_⟩)
      rw [Memory.word] at hd
      simp [runInstruction, hf, decode_pair, hd]
    | none =>
      refine .inr (.inr ⟨h, rfl, ?_⟩)
      rw [Memory.word] at hd
      simp [runInstruction, hf, decode_pair, hd, execUnmatched, done]
  · have hf : s.fetch = none := by simp [State.fetch, h]
    exact .inl ⟨by omega, by simp [runInstruction, hf, done]⟩

/-- A step is the host's turn and then, if the engine runs, one cycle (R240). -/
theorem step_cases (s : State) :
    (s.openTurn.runState = .running ∧ step s = closeCycle s.turnTicks (runInstruction s.openTurn)) ∨
    (s.openTurn.runState ≠ .running ∧ step s = .next s.openTurn) := by
  cases h : s.openTurn.runState with
  | running => exact .inl ⟨rfl, by simp [step, h]⟩
  | stopped => exact .inr ⟨by simp, by simp [step, h, done]⟩
  | faulted f => exact .inr ⟨by simp, by simp [step, h, done]⟩

/-- The end of a cycle: nothing after a fault, the three points otherwise (R240). -/
theorem endCycle_cases (k : Nat) (t : State) :
    (t.runState = .running ∧ t.endCycle k = ((t.tickPoint k).redrawPoint).stopPoint) ∨
    (t.runState ≠ .running ∧ t.endCycle k = t) := by
  cases h : t.runState with
  | running => exact .inl ⟨rfl, by simp [State.endCycle, h]⟩
  | stopped => exact .inr ⟨by simp, by simp [State.endCycle, h]⟩
  | faulted f => exact .inr ⟨by simp, by simp [State.endCycle, h]⟩

/-- With no event in the coming turn, the turn only uses itself up (R240). -/
theorem State.openTurn_quiet {s : State} (h : s.turnEvents = []) :
    s.openTurn = { s with script := s.script.tail, turns := s.turns + 1 } := by
  simp [State.openTurn, h, State.hostEvents]

end Sys2Proof.Machine
end

