-- ==== Sys2Proof/Tests/Slice0.lean ====
section
/-! SUPPORT. Tests and witnesses. Every expected result is a row of spec/95_test_vectors.md (named by its
id), a word written out from the formats of R71, or a value worked out by hand from the rule named. The
witnesses show that the hypotheses of the obligations can be met, at the boundary values of their clauses. -/

open Sys2Proof Sys2Proof.Machine Sys2Proof.Claims

namespace Sys2Proof.Tests

/-- The reset state with a word at PC = 0x200 and one host turn without event or tick. -/
def boot (w : Nat) : State := { State.reset.withFetchWord 16 w with script := [⟨[], 0⟩] }

/-- The state after the instruction step. -/
def ran (s : State) : State :=
  match runInstruction s with
  | .next t => t
  | .fault _ => s
  | .refused _ => s

/-- The state after one step of the machine. -/
def after (s : State) : State :=
  match step s with
  | .next t => t
  | .fault _ => s
  | .refused _ => s

/-- The buffer with the listed cells on. -/
def cellsOn (cells : List Nat) : Vector (BitVec 64) 32 :=
  cells.foldl flipDisp (Vector.replicate 32 0)

/-- Bytes placed in memory. -/
def withBytes (s : State) (a : Nat) (bytes : List Byte) : State :=
  { s with mem := s.mem.writeBytes a bytes }

/-- The bytes of memory from an address upward. -/
def bytesAt (s : State) (a n : Nat) : List Byte := (List.range n).map fun k => s.mem.read (a + k)

/-! ## Decoding: one word per row of R77, written out from the formats of R71 -/

theorem test_decode_exact_words :
    decode [0b00000000, 0b11100000] = .instr .cls [] ∧
    decode [0b00000000, 0b11101110] = .instr .ret [] := by decide

theorem test_decode_a12 :
    decode [0b00011010, 0b10111100] = .instr (.jp 0xABC) [] ∧
    decode [0b00100101, 0b00000001] = .instr (.call 0x501) [] ∧
    decode [0b10100010, 0b11110000] = .instr (.ldI 0x2F0) [] ∧
    decode [0b10111111, 0b00000001] = .instr (.jpV0 0xF01) [] := by decide

theorem test_decode_xkk :
    decode [0b00110011, 0b00010000] = .instr (.seByte 3 0x10) [] ∧
    decode [0b01000011, 0b00010000] = .instr (.sneByte 3 0x10) [] ∧
    decode [0b01101010, 0b01000010] = .instr (.ldByte 0xA 0x42) [] ∧
    decode [0b01110001, 0b00000010] = .instr (.addByte 1 0x02) [] ∧
    decode [0b11000011, 0b00001111] = .instr (.rnd 3 0x0F) [] := by decide

theorem test_decode_xys :
    decode [0b01010001, 0b00100000] = .instr (.seReg 1 2) [] ∧
    decode [0b10010001, 0b00100000] = .instr (.sneReg 1 2) [] ∧
    decode [0b10000001, 0b00100000] = .instr (.ldReg 1 2) [] ∧
    decode [0b10000001, 0b00100001] = .instr (.orReg 1 2) [] ∧
    decode [0b10000001, 0b00100010] = .instr (.andReg 1 2) [] ∧
    decode [0b10000001, 0b00100011] = .instr (.xorReg 1 2) [] := by decide

theorem test_decode_xys_flags :
    decode [0b10000001, 0b00100100] = .instr (.addReg 1 2) [] ∧
    decode [0b10000001, 0b00100101] = .instr (.subReg 1 2) [] ∧
    decode [0b10000001, 0b00100110] = .instr (.shr 1 2) [] ∧
    decode [0b10000001, 0b00100111] = .instr (.subnReg 1 2) [] ∧
    decode [0b10000001, 0b00101110] = .instr (.shl 1 2) [] := by decide

theorem test_decode_xyn : decode [0b11010000, 0b00011111] = .instr (.drw 0 1 0xF) [] := by decide

theorem test_decode_xs :
    decode [0b11100010, 0b10011110] = .instr (.skp 2) [] ∧
    decode [0b11100010, 0b10100001] = .instr (.sknp 2) [] ∧
    decode [0b11110011, 0b00000111] = .instr (.ldVxDT 3) [] ∧
    decode [0b11110101, 0b00001010] = .instr (.ldVxK 5) [] ∧
    decode [0b11110011, 0b00010101] = .instr (.ldDTVx 3) [] ∧
    decode [0b11110011, 0b00011000] = .instr (.ldSTVx 3) [] := by decide

theorem test_decode_xs_memory :
    decode [0b11110010, 0b00011110] = .instr (.addI 2) [] ∧
    decode [0b11110100, 0b00101001] = .instr (.ldF 4) [] ∧
    decode [0b11110001, 0b00110011] = .instr (.ldB 1) [] ∧
    decode [0b11110010, 0b01010101] = .instr (.storeRegs 2) [] ∧
    decode [0b11111111, 0b01100101] = .instr (.loadRegs 0xF) [] := by decide

/-- V5 to V15. -/
theorem test_decode_unmatched :
    decode [0x00, 0x00] = .unmatched 0x0000 ∧ decode [0x00, 0xE1] = .unmatched 0x00E1 ∧
    decode [0x01, 0xE0] = .unmatched 0x01E0 ∧ decode [0x0F, 0xFF] = .unmatched 0x0FFF ∧
    decode [0x51, 0x21] = .unmatched 0x5121 ∧ decode [0x81, 0x28] = .unmatched 0x8128 ∧
    decode [0x81, 0x2F] = .unmatched 0x812F ∧ decode [0x91, 0x21] = .unmatched 0x9121 ∧
    decode [0xE1, 0x9F] = .unmatched 0xE19F ∧ decode [0xF1, 0x00] = .unmatched 0xF100 ∧
    decode [0xFF, 0xFF] = .unmatched 0xFFFF := by decide

/-- A list shorter than a word is refused, and the bytes after a word are left (R70). -/
theorem test_decode_length :
    decode [] = .truncated ∧ decode [0x00] = .truncated ∧
    decode [0x00, 0xE0, 0x12] = .instr .cls [0x12] := by decide

/-- The host's numbering of the table's bits (R7). -/
theorem test_decode_table_word :
    decodeTableWord 16 0x8124 = some (.addReg 1 2) ∧ decodeTableWord 16 0x0000 = none := by decide

/-- R77 has 34 rows, and no two are alike. -/
theorem test_opcode_map_size : opcodeMap.length = 34 ∧ opcodeMap.Nodup := by decide

/-! ## WellFormed -/

/-- R262: the empty image is refused. -/
theorem test_wf_refuses_empty_image : imageWf [] = false := by decide

/-- R262: an image one byte too long is refused, the longest one is not. -/
theorem test_wf_refuses_oversize_image (b : Byte) :
    imageWf (List.replicate 3585 b) = false ∧ imageWf (List.replicate 3584 b) = true := by
  unfold imageWf
  rw [List.length_replicate, List.length_replicate]
  decide

/-- Every instruction is well formed: its operands cannot be out of range (R72). -/
theorem test_wf_instructions : Instr.wf (.drw 0xF 0xF 0xF) = true := by decide

/-! ## Reset and memory -/

/-- W1 and R38: a reset with the default font gives the state right after reset. -/
theorem test_reset_is_reset_state : State.reset.resetCore = State.reset := by decide

/-- R38, M20: the first and last font byte, and the bytes past the font. -/
theorem test_reset_memory :
    State.reset.mem.wf = true ∧ State.reset.mem.read 0 = 0xF0 ∧ State.reset.mem.read 79 = 0x80 ∧
    State.reset.mem.read 80 = 0 ∧ State.reset.mem.read 0xFFF = 0 := by decide

/-- The canonical form: writing what an unlisted address reads as removes the entry. -/
theorem test_memory_canonical :
    Memory.write [(0x300, 1)] 0x300 0 = [] ∧ Memory.write [(0x300, 1)] 0 0x12 = [(0, 0x12), (0x300, 1)] ∧
    Memory.wf [(0x301, 1), (0x300, 1)] = false ∧ Memory.wf [(0x300, 0)] = false := by decide

/-! ## Fetch and the unmatched opcode -/

/-- V1: the last legal fetch. -/
theorem test_fetch_last_address :
    (ran { withBytes (boot 0) 0xFFE [0x12, 0x00] with pc := 0xFFE }).pc = 0x200 := by decide

/-- V2, V3: the fetch fault changes nothing else. -/
theorem test_fetch_fault :
    ran { boot 0 with pc := 0xFFF } =
      { boot 0 with
        pc := 0xFFF, runState := .faulted (.fetchOutOfBounds 0xFFF),
        outcome := some (.faulted (.fetchOutOfBounds 0xFFF)) } ∧
    (ran { boot 0 with pc := 0x1000 }).runState = .faulted (.fetchOutOfBounds 0x1000) := by decide

/-- V4: an odd PC fetches like any other. -/
theorem test_fetch_odd_pc :
    (ran { withBytes (boot 0) 0x201 [0x60, 0x07] with pc := 0x201 }).readV 0 = 7 ∧
    (ran { withBytes (boot 0) 0x201 [0x60, 0x07] with pc := 0x201 }).pc = 0x203 := by decide

/-- V5, V9: a no-op. -/
theorem test_unmatched_is_noop :
    ran (boot 0x0000) = { boot 0x0000 with pc := 0x202, outcome := some .advanced } ∧
    (ran (((boot 0x5121).writeV 1 7).writeV 2 7)).pc = 0x202 := by decide

/-! ## Control transfer -/

/-- C1: the popped entry keeps its value. -/
theorem test_ret_pops :
    let t := ran { boot 0x00EE with sp := 1, stack := (boot 0).stack.set 0 0x206 }
    t.sp = 0 ∧ t.pc = 0x206 ∧ t.stack[0] = 0x206 := by decide

/-- C2. -/
theorem test_ret_underflow :
    let t := ran (boot 0x00EE)
    t.runState = .faulted (.stackUnderflow 0x200 0x00EE) ∧ t.sp = 0 ∧ t.pc = 0x200 := by decide

/-- C3, C4. -/
theorem test_jp : (ran (boot 0x1228)).pc = 0x228 ∧ (ran (boot 0x1FFF)).pc = 0xFFF := by decide

/-- C6: the 64th call. -/
theorem test_call_last_entry :
    let t := ran { boot 0x2300 with sp := 63 }
    t.stack[63] = 0x202 ∧ t.sp = 64 ∧ t.pc = 0x300 := by decide

/-- C7: the 65th call. -/
theorem test_call_overflow :
    let t := ran { boot 0x2300 with sp := 64 }
    t.runState = .faulted (.stackOverflow 0x200 0x2300) ∧ t.sp = 64 ∧ t.pc = 0x200 := by decide

/-- C8: the return address may be 0x1000. -/
theorem test_call_at_memory_end :
    let t := ran { withBytes (boot 0) 0xFFE [0x23, 0x00] with pc := 0xFFE }
    t.stack[0] = 0x1000 ∧ t.sp = 1 ∧ t.pc = 0x300 := by decide

/-- C9, C10. -/
theorem test_se_byte :
    (ran ((boot 0x3310).writeV 3 0x10)).pc = 0x204 ∧
    (ran ((boot 0x3310).writeV 3 0x11)).pc = 0x202 := by decide

/-- C11, C12. -/
theorem test_sne_byte :
    (ran ((boot 0x4310).writeV 3 0x11)).pc = 0x204 ∧
    (ran ((boot 0x4310).writeV 3 0x10)).pc = 0x202 := by decide

/-- C13, C14. -/
theorem test_se_reg :
    (ran (((boot 0x5120).writeV 1 7).writeV 2 7)).pc = 0x204 ∧
    (ran (((boot 0x5120).writeV 1 7).writeV 2 8)).pc = 0x202 := by decide

/-- C16, C17. -/
theorem test_sne_reg :
    (ran (((boot 0x9120).writeV 1 7).writeV 2 8)).pc = 0x204 ∧
    (ran ((boot 0x9110).writeV 1 7)).pc = 0x202 := by decide

/-- C20, C21: no reduction, and an odd target is accepted. -/
theorem test_jp_v0 :
    (ran ((boot 0xBF01).writeV 0 0xFF)).pc = 0x1000 ∧
    (ran ((boot 0xB200).writeV 0 0x01)).pc = 0x201 := by decide

/-! ## Register loads and the ALU -/

/-- A1, A2. -/
theorem test_ld_byte :
    (ran (boot 0x6A42)).readV 0xA = 0x42 ∧ (ran ((boot 0x6F00).writeV 0xF 0x55)).readV 0xF = 0 := by
  decide

/-- A3: it wraps and writes no flag. -/
theorem test_add_byte :
    let t := ran (((boot 0x7102).writeV 1 0xFF).writeV 0xF 0x55)
    t.readV 1 = 0x01 ∧ t.readV 0xF = 0x55 := by decide

/-- A5. -/
theorem test_ld_reg : (ran ((boot 0x8120).writeV 2 0x33)).readV 1 = 0x33 := by decide

/-- A6: VF is unchanged. -/
theorem test_or :
    let t := ran ((((boot 0x8121).writeV 1 0x0F).writeV 2 0xF0).writeV 0xF 0x55)
    t.readV 1 = 0xFF ∧ t.readV 0xF = 0x55 := by decide

/-- A7. -/
theorem test_and : (ran (((boot 0x8122).writeV 1 0x3C).writeV 2 0x0F)).readV 1 = 0x0C := by decide

/-- A8. -/
theorem test_xor : (ran (((boot 0x8123).writeV 1 0x3C).writeV 2 0x0F)).readV 1 = 0x33 := by decide

/-- W3a, A10. -/
theorem test_add_reg :
    let t := ran (((boot 0x8124).writeV 1 0xFF).writeV 2 0x01)
    let u := ran (((boot 0x8124).writeV 1 0x80).writeV 2 0x7F)
    t.readV 1 = 0x00 ∧ t.readV 0xF = 1 ∧ u.readV 1 = 0xFF ∧ u.readV 0xF = 0 := by decide

/-- A13, A15: the flag is written last, and a source VF gives its old value. -/
theorem test_add_reg_vf :
    let t := ran (((boot 0x8F14).writeV 0xF 0xF0).writeV 1 0x20)
    let u := ran (((boot 0x81F4).writeV 1 0x05).writeV 0xF 0x01)
    t.readV 0xF = 1 ∧ u.readV 1 = 0x06 ∧ u.readV 0xF = 0 := by decide

/-- W4a, A16. -/
theorem test_sub :
    let t := ran (((boot 0x8125).writeV 1 0x01).writeV 2 0x02)
    let u := ran (((boot 0x8125).writeV 1 0x05).writeV 2 0x05)
    t.readV 1 = 0xFF ∧ t.readV 0xF = 0 ∧ u.readV 1 = 0x00 ∧ u.readV 0xF = 1 := by decide

/-- A19: the difference is lost. -/
theorem test_sub_vf : (ran (((boot 0x8F15).writeV 0xF 0x03).writeV 1 0x05)).readV 0xF = 0 := by decide

/-- A22: Vy is ignored. -/
theorem test_shr :
    let t := ran (((boot 0x8126).writeV 1 0x04).writeV 2 0xFF)
    t.readV 1 = 0x02 ∧ t.readV 0xF = 0 := by decide

/-- A23: the old bit 0. -/
theorem test_shr_vf : (ran ((boot 0x8F06).writeV 0xF 0x03)).readV 0xF = 1 := by decide

/-- A24, A25. -/
theorem test_subn :
    let t := ran (((boot 0x8127).writeV 1 0x05).writeV 2 0x03)
    let u := ran (((boot 0x8127).writeV 1 0x03).writeV 2 0x05)
    t.readV 1 = 0xFE ∧ t.readV 0xF = 0 ∧ u.readV 1 = 0x02 ∧ u.readV 0xF = 1 := by decide

/-- A27. -/
theorem test_shl :
    let t := ran ((boot 0x810E).writeV 1 0x81)
    t.readV 1 = 0x02 ∧ t.readV 0xF = 1 := by decide

/-- A29: the old bit 7. -/
theorem test_shl_vf : (ran ((boot 0x8F0E).writeV 0xF 0x80)).readV 0xF = 1 := by decide

/-- A30: the host's draw, masked, and used up. -/
theorem test_rnd :
    let t := ran { boot 0xC30F with rndSupply := [0xA7, 0x11] }
    t.readV 3 = 0x07 ∧ t.rndSupply = [0x11] := by decide

/-- A31: whatever the free draw is. -/
theorem test_rnd_masked_to_zero : (ran (boot 0xC300)).readV 3 = 0x00 := by
  show Config.freeRandomByte 0 &&& 0x00#8 = 0
  simp

/-! ## Address register and memory -/

/-- M1. -/
theorem test_ld_i : (ran (boot 0xA2F0)).i = 0x2F0 := by decide

/-- M2, M3: past 0xFFF without a fault or a flag, and modulo 2^16. -/
theorem test_add_i :
    let t := ran ({ boot 0xF21E with i := 0x0FFF }.writeV 2 0x01)
    let u := ran ({ boot 0xF21E with i := 0xFFFF }.writeV 2 0x01)
    t.i = 0x1000 ∧ t.readV 0xF = 0 ∧ u.i = 0x0000 := by decide

/-- M4, M6: no masking. -/
theorem test_ld_f :
    (ran ((boot 0xF429).writeV 4 0x0A)).i = 0x32 ∧ (ran ((boot 0xF429).writeV 4 0xFF)).i = 0x4FB := by
  decide

/-- W5a, M9. -/
theorem test_ld_b :
    bytesAt (ran ({ boot 0xF133 with i := 0x300 }.writeV 1 0x7B)) 0x300 3 = [1, 2, 3] ∧
    bytesAt (ran ({ boot 0xF033 with i := 0xFFD }.writeV 0 0x09)) 0xFFD 3 = [0, 0, 9] := by decide

/-- M10, M11. -/
theorem test_ld_b_fault :
    (ran { boot 0xF033 with i := 0xFFE }).runState = .faulted (.writeOutOfBounds 0x200 0xF033 0x1000) ∧
    (ran { boot 0xF033 with i := 0x2000 }).runState = .faulted (.writeOutOfBounds 0x200 0xF033 0x2000) := by
  decide

/-- M12. -/
theorem test_store_regs :
    let t := ran ((({ boot 0xF255 with i := 0x300 }.writeV 0 1).writeV 1 2).writeV 2 3)
    bytesAt t 0x300 4 = [1, 2, 3, 0] ∧ t.i = 0x303 ∧ t.mem.wf = true := by decide

/-- M15: nothing is written. -/
theorem test_store_regs_fault :
    let s := { boot 0xFF55 with i := 0xFF1 }.writeV 0 9
    ran s = s.raiseFault (.writeOutOfBounds 0x200 0xFF55 0x1000) := by decide

/-- M16. -/
theorem test_load_regs :
    let t := ran { withBytes (boot 0xF265) 0x300 [7, 8, 9, 10] with i := 0x300 }
    t.readV 0 = 7 ∧ t.readV 1 = 8 ∧ t.readV 2 = 9 ∧ t.readV 3 = 0 ∧ t.i = 0x303 := by decide

/-- M18, M19. -/
theorem test_load_regs_at_memory_end :
    let s := { withBytes (boot 0xF065) 0xFFF [0x11] with i := 0xFFF }
    let u := { boot 0xF165 with i := 0xFFF }
    (ran s).readV 0 = 0x11 ∧ (ran s).i = 0x1000 ∧
    ran u = u.raiseFault (.readOutOfBounds 0x200 0xF165 0x1000) := by decide

/-! ## Display -/

/-- D1: VF is unchanged. -/
theorem test_cls :
    let t := ran { boot 0x00E0 with disp := cellsOn [0, 2047], dirty := false }
    t.disp = cellsOn [] ∧ t.dirty = true ∧ t.pc = 0x202 := by decide

/-- W6a: the second draw clears the first and reports the collision. -/
theorem test_drw_twice :
    let s := { withBytes (boot 0xD011) 0x300 [0xFF] with i := 0x300, dirty := false }
    let t := ran s
    let u := ran { t with pc := 0x200 }
    t.disp = cellsOn [0, 1, 2, 3, 4, 5, 6, 7] ∧ t.readV 0xF = 0 ∧ t.dirty = true ∧
    u.disp = cellsOn [] ∧ u.readV 0xF = 1 := by decide

/-- D5, and D9's fault: rows wrap, and a sprite past memory changes nothing. -/
theorem test_drw_wraps_and_faults :
    let s := ({ withBytes (boot 0xD012) 0x300 [0x80, 0x80] with i := 0x300 }.writeV 0 0x3F).writeV 1 0x1F
    let u := { boot 0xD012 with i := 0xFFF }
    (ran s).disp = cellsOn [2047, 63] ∧
    ran u = u.raiseFault (.readOutOfBounds 0x200 0xD012 0x1000) := by decide

/-! ## Keys and timers -/

/-- K1, K2. -/
theorem test_skp :
    (ran ({ boot 0xE29E with keys := 0x0020 }.writeV 2 5)).pc = 0x204 ∧
    (ran ((boot 0xE29E).writeV 2 5)).pc = 0x202 := by decide

/-- K5. -/
theorem test_skp_fault :
    (ran ((boot 0xE29E).writeV 2 0x10)).runState =
      .faulted (.keyIndexOutOfRange 0x200 0xE29E 0x10) := by decide

/-- K3, K4. -/
theorem test_sknp :
    (ran ((boot 0xE2A1).writeV 2 5)).pc = 0x204 ∧
    (ran ({ boot 0xE2A1 with keys := 0x0020 }.writeV 2 5)).pc = 0x202 := by decide

/-- K6. -/
theorem test_sknp_fault :
    (ran ((boot 0xE2A1).writeV 2 0xFF)).runState =
      .faulted (.keyIndexOutOfRange 0x200 0xE2A1 0xFF) := by decide

/-- K11. -/
theorem test_ld_vx_dt : (ran { boot 0xF307 with dt := 0x3C }).readV 3 = 0x3C := by decide

/-- K7. -/
theorem test_ld_vx_k_waits :
    ran (boot 0xF50A) = { boot 0xF50A with outcome := some .waitingForKey } := by decide

/-- K8, K9. -/
theorem test_ld_vx_k_takes_highest :
    (ran ({ boot 0xF50A with keys := 0x0001 }.writeV 5 9)).readV 5 = 0x00 ∧
    (ran { boot 0xF50A with keys := 0x8081 }).readV 5 = 0x0F := by decide

/-- K12. -/
theorem test_ld_dt_vx : (ran ((boot 0xF315).writeV 3 0x0A)).dt = 0x0A := by decide

/-- K13, K14: no beep. -/
theorem test_ld_st_vx :
    (ran ((boot 0xF318).writeV 3 0x02)).st = 0x02 ∧
    (ran { boot 0xF318 with st := 5 }).st = 0 ∧ (ran { boot 0xF318 with st := 5 }).outputs = [] := by
  decide

/-! ## The cycle and the ports -/

/-- T1. -/
theorem test_tick :
    let t := { State.reset with dt := 2, st := 1 }.tick
    t.dt = 1 ∧ t.st = 0 ∧ t.outputs = [.beep] := by decide

/-- T4: one beep, at the third tick. -/
theorem test_tick_beeps_once :
    ({ State.reset with st := 3 }.tickPoint 2).outputs = [] ∧
    ({ State.reset with st := 3 }.tickPoint 3).outputs = [.beep] ∧
    ({ State.reset with st := 3 }.tickPoint 9).outputs = [.beep] := by decide

/-- Y1: the first cycle hands over the blank buffer. -/
theorem test_cycle_redraws :
    let t := after (boot 0x6000)
    t.outputs = [.redraw (cellsOn [])] ∧ t.dirty = false ∧ t.readV 0 = 0 := by decide

/-- Y2: two ticks in a cycle. -/
theorem test_cycle_ticks :
    let t := after { boot 0x6000 with dirty := false, dt := 5, script := [⟨[], 2⟩] }
    t.dt = 3 ∧ t.outputs = [] ∧ t.script = [] := by decide

/-- Y3: a faulting cycle neither ticks nor redraws. -/
theorem test_cycle_fault :
    let t := after { boot 0x00EE with dt := 5, script := [⟨[], 1⟩] }
    t.runState = .faulted (.stackUnderflow 0x200 0x00EE) ∧ t.dt = 5 ∧ t.outputs = [] ∧
    t.dirty = true := by decide

/-- Y4: the stop is honoured after the cycle's tick and redraw. -/
theorem test_cycle_stop :
    let t := after { boot 0x6107 with dt := 5, script := [⟨[.stop], 1⟩] }
    t.runState = .stopped ∧ t.stopPending = false ∧ t.dt = 4 ∧ t.readV 1 = 7 ∧
    t.outputs = [.redraw (cellsOn [])] := by decide

/-- Y5: a reset leaves a fault, and the cycle that follows runs from the reset state. -/
theorem test_reset_leaves_fault :
    ({ State.reset with runState := .faulted (.stackUnderflow 0x200 0x00EE), i := 5 }.hostEvent
      .reset) = State.reset := by decide

/-- Y6, Y9. -/
theorem test_load :
    let s := { boot 0 with keys := 0x0008, i := 7 }
    let t := s.hostEvent (.load [0x12, 0x00])
    s.hostEvent (.load []) = { s with outputs := [.loadResult false] } ∧
    t.keys = 0 ∧ t.i = 0 ∧ bytesAt t 0x200 3 = [0x12, 0x00, 0x00] ∧
    t.outputs = [.loadResult true] := by decide

/-- Y7. -/
theorem test_load_oversize (s : State) (b : Byte) :
    s.hostEvent (.load (List.replicate 3585 b)) = { s with outputs := .loadResult false :: s.outputs } := by
  have h : imageWf (List.replicate 3585 b) = false := (test_wf_refuses_oversize_image b).1
  show s.loadImage (List.replicate 3585 b) = _
  unfold State.loadImage
  rw [h]
  rfl

/-- R233: a key event turns one bit on or off. -/
theorem test_key_event :
    (State.reset.hostEvent (.key 0xF true)).keys = 0x8000 ∧
    ({ State.reset with keys := 0xFFFF }.hostEvent (.key 0 false)).keys = 0xFFFE := by decide

/-- M21: the stored bytes are the next instruction. -/
theorem test_self_modifying :
    (ran ({ boot 0xF155 with i := 0x202 }.writeV 1 0xE0)).fetch = some [0x00, 0xE0] := by decide

/-! ## Witnesses: for each obligation with hypotheses, states and operands that meet them -/

theorem witness_EncodeOfDecodedWordIsTheWord : decodeWord 0x8124 = some (.addReg 1 2) := by decide

/-- A matched word, with its row; an unmatched word, which no row fits. -/
theorem witness_DecoderFollowsTheOpcodeMap :
    decodeWord 0x8124 = some (.addReg 1 2) ∧
    (∃ r ∈ opcodeMap, r.fits 0x8124 = true) ∧ ∀ r ∈ opcodeMap, r.fits 0x8128 = false := by decide

/-- PC at the last fetch address, with the instruction there. -/
theorem witness_StepRunsTheDecodedInstruction :
    let s := { withBytes (boot 0) 0xFFE [0x12, 0x00] with pc := 0xFFE }
    s.openTurn.runState = .running ∧ s.openTurn.pc.toNat ≤ 0xFFE ∧
    decode [s.openTurn.mem.read s.openTurn.pc.toNat, s.openTurn.mem.read (s.openTurn.pc.toNat + 1)] =
      .instr (.jp 0x200) [] := by decide

/-- Both sides of the bound. -/
theorem witness_FetchReadsABigEndianWordOrFaults :
    0xFFE < { boot 0 with pc := 0xFFF }.pc.toNat ∧ { boot 0 with pc := 0xFFE }.pc.toNat ≤ 0xFFE := by
  decide

theorem witness_UnmatchedOpcodeOnlyAdvances :
    let s := { boot 0 with pc := 0xFFE }
    s.pc.toNat ≤ 0xFFE ∧ decodeWord (s.mem.word s.pc.toNat) = none := by decide

/-- The instruction step takes no fault; a stop is pending at its end. -/
theorem witness_CycleTicksThenRedrawsThenStops :
    ∃ s u : State, s.openTurn.runState = .running ∧ runInstruction s.openTurn = .next u ∧
      u.runState = .running ∧ u.stopPending = true :=
  ⟨{ boot 0x6107 with script := [⟨[.stop], 3⟩] }, _, by decide, rfl, by decide, by decide⟩

/-- A faulting step. -/
theorem witness_FaultIsPreciseAndHaltsUntilReset_taken :
    ∃ s u : State, s.openTurn.runState = .running ∧ runInstruction s.openTurn = .next u ∧
      u.runState = .faulted (.stackUnderflow 0x200 0x00EE) :=
  ⟨boot 0x00EE, _, by decide, rfl, by decide⟩

/-- A faulted engine with a key event, a stop request and a rejected load to come. -/
theorem witness_FaultIsPreciseAndHaltsUntilReset_halted :
    let s := { boot 0 with
      runState := .faulted (.fetchOutOfBounds 0xFFF), script := [⟨[.key 3 true, .stop, .load []], 1⟩] }
    s.runState = .faulted (.fetchOutOfBounds 0xFFF) ∧ NoResetComing s := by
  refine ⟨by decide, fun e he => ?_⟩
  simp only [State.turnEvents, List.mem_cons, List.not_mem_nil, or_false] at he
  rcases he with rfl | rfl | rfl
  · simp
  · simp
  · refine ⟨by simp, fun bytes hb => ?_⟩
    cases hb
    decide

/-- A faulted engine whose coming turn resets it. -/
theorem witness_FaultIsPreciseAndHaltsUntilReset_reset :
    ∃ s : State, s.runState = .faulted (.fetchOutOfBounds 0xFFF) ∧ s.turnEvents = [.reset] :=
  ⟨{ boot 0 with runState := .faulted (.fetchOutOfBounds 0xFFF), script := [⟨[.reset], 0⟩] }, by decide⟩

/-- Each row of the fault table at the first value that faults and at the last one that does not. -/
theorem witness_FaultsAreThoseOfTheTable :
    faultOf .ret (boot 0) = some (.stackUnderflow 0x200 0x00EE) ∧
    faultOf .ret { boot 0 with sp := 1 } = none ∧
    faultOf (.call 0x300) { boot 0 with sp := 64 } = some (.stackOverflow 0x200 0x2300) ∧
    faultOf (.call 0x300) { boot 0 with sp := 63 } = none ∧
    faultOf (.drw 0 0 2) { boot 0 with i := 0xFFF } = some (.readOutOfBounds 0x200 0xD002 0x1000) ∧
    faultOf (.drw 0 0 1) { boot 0 with i := 0xFFF } = none ∧
    faultOf (.drw 0 0 0) { boot 0 with i := 0xFFFF } = none ∧
    faultOf (.ldB 0) { boot 0 with i := 0xFFE } = some (.writeOutOfBounds 0x200 0xF033 0x1000) ∧
    faultOf (.ldB 0) { boot 0 with i := 0xFFD } = none ∧
    faultOf (.skp 2) ((boot 0).writeV 2 16) = some (.keyIndexOutOfRange 0x200 0xE29E 16) ∧
    faultOf (.skp 2) ((boot 0).writeV 2 15) = none ∧
    0xFFE < { boot 0 with pc := 0xFFF }.pc.toNat := by decide

/-- Halted, with no event, and with an event that is no reset. -/
theorem witness_HaltedEngineExecutesNothing :
    ∃ s t : State, s.runState ≠ .running ∧ s.turnEvents = [] ∧ t.runState ≠ .running ∧
      t.turnEvents = [.key 3 true] ∧ NoResetComing t := by
  refine ⟨{ boot 0 with runState := .stopped },
    { boot 0 with runState := .stopped, script := [⟨[.key 3 true], 1⟩] }, by decide, by decide, by decide,
    by decide, fun e he => ?_⟩
  simp only [State.turnEvents, List.mem_singleton] at he
  subst he
  simp

theorem witness_TickDecrementsBothCounters :
    { boot 0 with runState := .stopped }.openTurn.runState ≠ .running := by decide

/-- Both ends of the key range. -/
theorem witness_KeyEventWritesOneBit : (0 : Nat) < 16 ∧ (15 : Nat) < 16 := by decide

/-- The stopped clauses: no reset coming, one key event, one reset. The running clause has the witness
of CycleTicksThenRedrawsThenStops. -/
theorem witness_StopRequestIsHonouredAtTheEndOfTheCycle :
    ∃ s t u : State, s.runState = .stopped ∧ NoResetComing s ∧ t.runState = .stopped ∧
      t.turnEvents = [.key 0xF true] ∧ u.runState = .stopped ∧ u.turnEvents = [.reset] := by
  refine ⟨{ boot 0 with runState := .stopped },
    { boot 0 with runState := .stopped, script := [⟨[.key 0xF true], 0⟩] },
    { boot 0 with runState := .stopped, script := [⟨[.reset], 0⟩] }, by decide, fun e he => ?_, by decide,
    by decide, by decide, by decide⟩
  simp [State.turnEvents, boot] at he

/-- Addresses at both ends of the font and of the zeroed range. -/
theorem witness_ResetEstablishesTheTable :
    (0 : Nat) < 80 ∧ (79 : Nat) < 80 ∧ (80 ≤ (80 : Nat) ∧ 80 ≤ 0xFFF) ∧ 80 ≤ (0xFFF : Nat) := by decide

/-- Lengths 0 and 3585 fail; lengths 1 and 3584 do not; inside and outside the image. -/
theorem witness_LoadRejectsOrResetsAndCopies :
    ([] : List Byte).length = 0 ∧ 3584 < (List.replicate 3585 (0 : Byte)).length ∧
    0 < [(0x12 : Byte)].length ∧ [(0x12 : Byte)].length ≤ 3584 ∧
    0 < (List.replicate 3584 (0 : Byte)).length ∧ (List.replicate 3584 (0 : Byte)).length ≤ 3584 ∧
    0 < [(0x12 : Byte)].length ∧ (0x1FF < 0x200 ∨ 0x200 + [(0x12 : Byte)].length ≤ 0x1FF) := by
  simp only [List.length_replicate, List.length_cons, List.length_nil]
  decide

/-- x is not F, and its neighbour; a bit of a byte. -/
theorem witness_LogicOperationsWriteOnlyVx : (0 : Nat) < 8 ∧ (7 : Nat) < 8 := by decide

theorem witness_AddWritesSumAndCarry : (0xE#4 : Nibble) ≠ 0xF#4 := by decide

theorem witness_SubtractionsWriteDifferenceAndNoBorrow : (0xE#4 : Nibble) ≠ 0xF#4 := by decide

theorem witness_ShiftsMoveTheLostBitToVF : (0x0#4 : Nibble) ≠ 0xF#4 := by decide

theorem witness_CallPushesOrOverflows :
    { boot 0x2300 with sp := 64 }.sp.val = 64 ∧ { boot 0x2300 with sp := 63 }.sp.val < 64 ∧
    (boot 0x2300).sp.val < 64 ∧ (0 : Nat) < 64 ∧ 0 ≠ { boot 0x2300 with sp := 63 }.sp.val := by decide

/-- A state in the invariant with one call open. -/
theorem witness_ReturnPopsOrUnderflows_inv :
    0 < { boot 0x00EE with sp := 1 }.sp.val ∧ { boot 0x00EE with sp := 1 }.Inv := by
  refine ⟨by decide, by decide, by decide, ?_, ?_, ?_⟩
  · intro w hw
    have h0 : w = 0 := by simpa [boot, State.withFetchWord, State.reset] using hw
    simp [h0]
  · intro f
    simp [boot, State.withFetchWord, State.reset]
  · intro f hf
    cases hf

theorem witness_ReturnPopsOrUnderflows :
    (boot 0x00EE).sp.val = 0 ∧ 0 < { boot 0x00EE with sp := 1 }.sp.val ∧
    0 < { boot 0x00EE with sp := 64 }.sp.val := by decide

/-- A return to 0x1000. -/
theorem witness_ReturnPopsOrUnderflows_end :
    ∃ s t : State, 0 < s.sp.val ∧ exec .ret s = .next t ∧ t.pc.toNat = 0x1000 :=
  ⟨{ boot 0x00EE with sp := 1, stack := (boot 0).stack.set 0 0x1000 }, _, by decide, rfl, by decide⟩

/-- A call at depth 1, with the entry below it. -/
theorem witness_StepKeepsTheEntriesBelowSP :
    ∃ s t : State, NoResetComing s ∧ step s = .next t ∧ 0 < s.sp.val ∧ t.sp.val = 2 := by
  refine ⟨{ boot 0x2300 with sp := 1 }, _, fun e he => ?_, rfl, by decide, by decide⟩
  exact absurd he List.not_mem_nil

theorem witness_RegisterSkipsAdvanceByFourOrTwo : (0x1#4 : Nibble) ≠ 0x0#4 ∧ (0xF#4 : Nibble) ≠ 0x0#4 := by
  decide

/-- Dirty set, and clear. -/
theorem witness_RedrawPointHandsOverTheDirtyBuffer :
    (boot 0).dirty = true ∧ { boot 0 with dirty := false }.dirty = false := by decide

/-- A call whose body is one no-op. -/
theorem witness_ReturnAfterABalancedBodyResumesAtTheCall :
    ∃ s t u : State, s.sp.val < 64 ∧ exec (.call 0x300) s = .next t ∧
      RunAtDepth (s.sp.val + 1) 1 t u ∧ u.sp = t.sp := by
  refine ⟨boot 0x2300, _, _, by decide, rfl, ⟨fun e he => ?_, _, rfl, by decide, rfl⟩, by decide⟩
  exact absurd he (List.not_mem_nil)

/-- Both sides of the bound, on the reset memory. -/
theorem witness_BcdStoresThreeDigitsOrFaults :
    (boot 0xF033).mem.wf = true ∧ 0xFFF < { boot 0xF033 with i := 0xFFE }.effAddr 2 ∧
    { boot 0xF033 with i := 0xFFD }.effAddr 2 ≤ 0xFFF := by decide

theorem witness_BlockStoreWritesEachRegisterOrFaults :
    (boot 0xFF55).mem.wf = true ∧ 0xFFF < { boot 0xFF55 with i := 0xFF1 }.effAddr (0xF#4).toNat ∧
    { boot 0xFF55 with i := 0xFF0 }.effAddr (0xF#4).toNat ≤ 0xFFF := by decide

theorem witness_BlockLoadReadsEachRegisterOrFaults :
    0xFFF < { boot 0xF165 with i := 0xFFF }.effAddr (0x1#4).toNat ∧
    { boot 0xF065 with i := 0xFFF }.effAddr (0x0#4).toNat ≤ 0xFFF := by decide

/-- The bound met exactly by both stores; a store over its own word; fetches that meet two stored bytes, the
last one only, and the first one only. -/
theorem witness_StoresAreSeenByTheNextFetch :
    (boot 0xF155).mem.wf = true ∧ { boot 0xF155 with i := 0xFFE }.effAddr (0x1#4).toNat ≤ 0xFFF ∧
    { boot 0xF033 with i := 0xFFD }.effAddr 2 ≤ 0xFFF ∧
    { boot 0xF155 with i := 0x200 }.fetch = some (bytesOfWord (fmtXKK 0xF#4 0x1#4 0x55#8)) ∧
    { boot 0xF033 with i := 0x200 }.fetch = some (bytesOfWord (fmtXKK 0xF#4 0x0#4 0x33#8)) ∧
    ∃ t u v w : State, exec (.storeRegs 0x1#4) { boot 0xF155 with i := 0xFFE } = .next t ∧
      u.mem = t.mem ∧ u.pc.toNat = 0xFFE ∧
      exec (.ldB 0x0#4) { boot 0xF033 with i := 0x300 } = .next v ∧
      w.mem = v.mem ∧ w.pc.toNat = 0x302 :=
  ⟨by decide, by decide, by decide, by decide, by decide, _, { ran { boot 0xF155 with i := 0xFFE } with
    pc := 0xFFE }, _, { ran { boot 0xF033 with i := 0x300 } with pc := 0x302 }, rfl, rfl, by decide, rfl, rfl,
    by decide⟩

/-- The fault, a height of zero with I past memory, and the last byte of memory. -/
theorem witness_DrawFlipsTheSpriteCellsAndReportsCollision :
    (0 < (0x2#4).toNat ∧ 0xFFF < { boot 0 with i := 0xFFF }.effAddr ((0x2#4).toNat - 1)) ∧
    (0x0#4).toNat = 0 ∧ { boot 0 with i := 0xFFF }.effAddr ((0x1#4).toNat - 1) ≤ 0xFFF := by decide

theorem witness_KeySkipsTestTheLatchOrFault :
    15 < (((boot 0).writeV 2 16).readV 2).toNat ∧ (((boot 0).writeV 2 15).readV 2).toNat ≤ 15 := by decide

/-- No key; key 0 alone; key 15 with all the others. -/
theorem witness_WaitForKeyTakesTheHighestPressedKey :
    (∀ k, k < 16 → (boot 0).keys.getLsbD k = false) ∧
    ({ boot 0 with keys := 0x0001 }.keys.getLsbD 0 = true ∧
      ∀ j, 0 < j → j < 16 → { boot 0 with keys := 0x0001 }.keys.getLsbD j = false) ∧
    ({ boot 0 with keys := 0xFFFF }.keys.getLsbD 15 = true ∧
      ∀ j, 15 < j → j < 16 → { boot 0 with keys := 0xFFFF }.keys.getLsbD j = false) := by
  refine ⟨fun k _ => by simp [boot, State.withFetchWord, State.reset], ⟨by decide, ?_⟩, by decide, ?_⟩
  · intro j h1 h2
    interval_cases j <;> decide
  · intro j h1 h2
    omega

/-- A skip, each jump, a wait and a fault. -/
theorem witness_ProgramCounterAdvancesAsTheRuleSays :
    (∃ t, exec (.seByte 0 0) (boot 0x3000) = .next t ∧ t.pc = 0x204) ∧
    (∃ t, exec (.jp 0xFFF) (boot 0x1FFF) = .next t ∧ t.pc = 0xFFF) ∧
    (∃ t, exec (.call 0x300) (boot 0x2300) = .next t ∧ t.pc = 0x300) ∧
    (∃ t, exec (.jpV0 0xF01) ((boot 0xBF01).writeV 0 0xFF) = .next t ∧ t.pc = 0x1000) ∧
    (∃ t, exec .ret { boot 0x00EE with sp := 1, stack := (boot 0).stack.set 0 0x206 } = .next t ∧
      t.pc = 0x206) ∧
    (∃ t, exec (.ldVxK 5) (boot 0xF50A) = .next t ∧ t.outcome ≠ some .advanced) ∧
    (∃ t, exec .ret (boot 0x00EE) = .next t ∧ t.outcome ≠ some .advanced) :=
  ⟨⟨_, rfl, by decide⟩, ⟨_, rfl, by decide⟩, ⟨_, rfl, by decide⟩, ⟨_, rfl, by decide⟩, ⟨_, rfl, by decide⟩,
    ⟨_, rfl, by decide⟩, ⟨_, rfl, by decide⟩⟩

theorem witness_OnlyFlagWritersAndNamedDestinationsChangeVF :
    ∃ s t : State, exec (.addByte 0xF 1) s = .next t ∧ t.readV 0xF#4 ≠ s.readV 0xF#4 :=
  ⟨boot 0x7F01, _, rfl, by decide⟩

theorem witness_OnlyCallAndReturnTouchTheStack :
    ∃ s t : State, exec (.call 0x300) s = .next t ∧ (t.sp ≠ s.sp ∨ t.stack ≠ s.stack) :=
  ⟨boot 0x2300, _, rfl, by decide⟩

theorem witness_OnlyStoresChangeMemoryInTheirRange :
    ∃ s t : State, s.mem.wf = true ∧ exec (.ldB 1) s = .next t ∧
      t.mem.read 0xFFF ≠ s.mem.read 0xFFF :=
  ⟨{ boot 0xF133 with i := 0xFFD }.writeV 1 0x7B, _, by decide, rfl, by decide⟩

theorem witness_OnlyTheHostWritesTheKeyLatch :
    ∃ s t : State, (∀ e ∈ s.turnEvents, e = .stop) ∧ s.turnEvents = [.stop] ∧ step s = .next t :=
  ⟨{ boot 0xF50A with script := [⟨[.stop], 0⟩], keys := 0x0020 }, _, by decide, by decide, rfl⟩

theorem witness_MemoriesThatReadAlikeAreEqual :
    Memory.wf [(0x300, 1)] = true ∧ Memory.wf (Memory.write [(0x300, 2)] 0x300 1) = true := by decide

theorem witness_ResetCoreWithoutProgramRunsToTheFetchFault : State.reset.script = [] := by decide

/-- The reset values that the witnesses of the invariant start from keep its bounds. -/
theorem boot_stack (w : Nat) : ∀ e ∈ (boot w).stack.toList, e.toNat ≤ 0x1000 := by
  intro e he
  have h0 : e = 0 := by simpa [boot, State.withFetchWord, State.reset] using he
  simp [h0]

/-- The invariant holds at a running state that takes a step. -/
theorem witness_StepKeepsTheInvariant :
    (∃ t, step (boot 0x00EE) = .next t) ∧ (boot 0x00EE).Inv := by
  refine ⟨⟨_, rfl⟩, by decide, by decide, boot_stack _, ?_, ?_⟩
  · intro f
    simp [boot, State.withFetchWord, State.reset]
  · intro f hf
    cases hf

/-- What a witness of a fault clause shows: s takes the fault f, and the faulted state is in the invariant
and takes a step. -/
def FaultShown (s : State) (f : Fault) : Prop :=
  runInstruction s = .next (s.raiseFault f) ∧ (s.raiseFault f).Inv ∧ ∃ t, step (s.raiseFault f) = .next t

theorem witness_StepKeepsTheInvariant_stack :
    FaultShown { boot 0x2300 with sp := 64 } (.stackOverflow 0x200 0x2300) ∧
    FaultShown (boot 0x00EE) (.stackUnderflow 0x200 0x00EE) :=
  ⟨⟨rfl, State.raiseFault_inv (by decide) (by decide) (boot_stack 0x2300)
      ⟨by decide, by decide, by decide, by decide⟩, _, rfl⟩,
    ⟨rfl, State.raiseFault_inv (by decide) (by decide) (boot_stack 0x00EE)
      ⟨by decide, by decide, by decide, by decide⟩, _, rfl⟩⟩

theorem witness_StepKeepsTheInvariant_fetch :
    FaultShown { boot 0 with pc := 0xFFF } (.fetchOutOfBounds 0xFFF) :=
  ⟨rfl, State.raiseFault_inv (by decide) (by decide) (boot_stack 0) ⟨by decide, by decide⟩, _, rfl⟩

/-- M19 and D9: Fx65, and the draw. -/
theorem witness_StepKeepsTheInvariant_read :
    FaultShown { boot 0xF165 with i := 0xFFF } (.readOutOfBounds 0x200 0xF165 0x1000) ∧
    FaultShown { boot 0xD012 with i := 0xFFF } (.readOutOfBounds 0x200 0xD012 0x1000) :=
  ⟨⟨rfl, State.raiseFault_inv (by decide) (by decide) (boot_stack 0xF165)
      ⟨by decide, by decide, by decide, by decide⟩, _, rfl⟩,
    ⟨rfl, State.raiseFault_inv (by decide) (by decide) (boot_stack 0xD012)
      ⟨by decide, by decide, by decide, by decide⟩, _, rfl⟩⟩

/-- M10 and M15: Fx33, and Fx55. -/
theorem witness_StepKeepsTheInvariant_write :
    FaultShown { boot 0xF033 with i := 0xFFE } (.writeOutOfBounds 0x200 0xF033 0x1000) ∧
    FaultShown { boot 0xFF55 with i := 0xFF1 } (.writeOutOfBounds 0x200 0xFF55 0x1000) :=
  ⟨⟨rfl, State.raiseFault_inv (by decide) (by decide) (boot_stack 0xF033)
      ⟨by decide, by decide, by decide, by decide⟩, _, rfl⟩,
    ⟨rfl, State.raiseFault_inv (by decide) (by decide) (boot_stack 0xFF55)
      ⟨by decide, by decide, by decide, by decide⟩, _, rfl⟩⟩

/-- K5 and K6. -/
theorem witness_StepKeepsTheInvariant_key :
    FaultShown ((boot 0xE29E).writeV 2 0x10) (.keyIndexOutOfRange 0x200 0xE29E 0x10) ∧
    FaultShown ((boot 0xE2A1).writeV 2 0xFF) (.keyIndexOutOfRange 0x200 0xE2A1 0xFF) :=
  ⟨⟨rfl, State.raiseFault_inv (by decide) (by decide) (boot_stack 0xE29E)
      ⟨by decide, by decide, by decide, by decide, by decide, by decide⟩, _, rfl⟩,
    ⟨rfl, State.raiseFault_inv (by decide) (by decide) (boot_stack 0xE2A1)
      ⟨by decide, by decide, by decide, by decide, by decide, by decide⟩, _, rfl⟩⟩

end Sys2Proof.Tests
end

section
/-! Encoding: what advancing PC does and leaves, and the step over an unmatched opcode. -/

namespace Sys2Proof.Machine

/-- A jump of any kind writes PC and the outcome port only. -/
theorem State.onlyPc_jumpTo (s : State) (w : Word) : OnlyPc s (s.jumpTo w) := ⟨rfl, fun _ => rfl⟩

/-- Advancing from a state with the same PC, the form in which an instruction ends after its own writes
(R75). -/
theorem State.advancedBy_advance {s u : State} (hpc : u.pc = s.pc) : AdvancedBy s u.advance 2 := by
  constructor
  · simp [hpc, BitVec.toNat_add]
  · simp

/-- Over an unmatched word that can be fetched, the instruction step is the bare advance (R78). -/
theorem runInstruction_of_unmatched {s : State} (hfetch : s.pc.toNat ≤ 0xFFE)
    (hword : decodeWord (s.mem.word s.pc.toNat) = none) : runInstruction s = .next s.advance := by
  obtain ⟨hout, -⟩ | ⟨-, i, hi, -⟩ | ⟨-, -, hrun⟩ := runInstruction_cases s
  · omega
  · simp [hword] at hi
  · exact hrun

end Sys2Proof.Machine

namespace Sys2Proof.Proofs

open Sys2Proof.Machine

/-- Settles O8: the step over an unmatched word is the bare advance, a jump to PC + 2. -/
theorem unmatchedOpcodeOnlyAdvances : Obligations.UnmatchedOpcodeOnlyAdvances := by
  intro s hfetch hword
  exact ⟨s.advance, runInstruction_of_unmatched hfetch hword, State.advancedBy_advance rfl,
    s.onlyPc_jumpTo _⟩

end Sys2Proof.Proofs
end

section
/-! Control: what a skip does, and the byte skips. -/

namespace Sys2Proof.Machine

/-- A skip on c, which says whether P holds, is by four where P does and by two where not (R105). -/
theorem State.advancedBy_skipIf (s : State) {c : Bool} {P : Prop} [Decidable P] (hc : c = true ↔ P) :
    AdvancedBy s (s.skipIf c) (if P then 4 else 2) := by
  constructor
  · by_cases hP : P
    · simp [hc.mpr hP, hP, BitVec.toNat_add]
    · have hfalse : c = false := Bool.eq_false_iff.mpr (mt hc.mp hP)
      simp [hfalse, hP, BitVec.toNat_add]
  · simp

/-- A skip writes PC and the outcome port only. -/
theorem State.onlyPc_skipIf (s : State) (c : Bool) : OnlyPc s (s.skipIf c) := s.onlyPc_jumpTo _

/-- 3xkk skips on a register equal to kk (R106). -/
theorem exec_seByte (x : Nibble) (kk : Byte) (s : State) :
    exec (.seByte x kk) s = .next (s.skipIf (s.readV x == kk)) := rfl

/-- 4xkk skips on a register other than kk (R107). -/
theorem exec_sneByte (x : Nibble) (kk : Byte) (s : State) :
    exec (.sneByte x kk) s = .next (s.skipIf (s.readV x != kk)) := rfl

theorem wordIs_seByte (x : Nibble) (kk : Byte) : WordIs (.seByte x kk) (fmtXKK 0x3#4 x kk) :=
  ⟨rfl, by simp [decodeWord]⟩

theorem wordIs_sneByte (x : Nibble) (kk : Byte) : WordIs (.sneByte x kk) (fmtXKK 0x4#4 x kk) :=
  ⟨rfl, by simp [decodeWord]⟩

end Sys2Proof.Machine

namespace Sys2Proof.Proofs

open Sys2Proof.Machine

/-- Settles O33: each byte skip is the shared skip, on its own comparison of Vx with kk. -/
theorem byteSkipsAdvanceByFourOrTwo : Obligations.ByteSkipsAdvanceByFourOrTwo := by
  intro s x kk
  have heq : (s.readV x == kk) = true ↔ (s.readV x).toNat = kk.toNat := by
    rw [beq_iff_eq, BitVec.toNat_inj]
  have hne : (s.readV x != kk) = true ↔ (s.readV x).toNat ≠ kk.toNat := by
    rw [bne_iff_ne, Ne, Ne, BitVec.toNat_inj]
  constructor
  · exact ⟨wordIs_seByte x kk, _, exec_seByte x kk s, s.onlyPc_skipIf _, s.advancedBy_skipIf heq⟩
  · exact ⟨wordIs_sneByte x kk, _, exec_sneByte x kk s, s.onlyPc_skipIf _, s.advancedBy_skipIf hne⟩

end Sys2Proof.Proofs
end

section
/-! ALU: what an instruction that ends in one register write leaves, and the loads and the byte add. -/

namespace Sys2Proof.Machine

/-- Writing Vx and advancing writes Vx, PC and the outcome port only. -/
theorem State.onlyRegs_writeV_advance (s : State) (x : Nibble) (b : Byte) :
    OnlyRegs s (s.writeV x b).advance [x] := by
  refine ⟨rfl, fun r hr => ?_, fun _ => rfl⟩
  have hne : r ≠ x := by simpa using hr
  simp [State.readV_writeV, hne]

/-- After writing Vx and advancing, Vx holds the byte written. -/
theorem State.readV_writeV_advance (s : State) (x : Nibble) (b : Byte) :
    (s.writeV x b).advance.readV x = b := by
  rw [State.readV_advance, State.readV_writeV_same]

/-- 6xkk writes kk to Vx (R131). -/
theorem exec_ldByte (x : Nibble) (kk : Byte) (s : State) :
    exec (.ldByte x kk) s = .next (s.writeV x kk).advance := rfl

/-- 7xkk writes the sum of Vx and kk to Vx (R132). -/
theorem exec_addByte (x : Nibble) (kk : Byte) (s : State) :
    exec (.addByte x kk) s = .next (s.writeV x (s.readV x + kk)).advance := rfl

/-- 8xy0 writes Vy to Vx (R133). -/
theorem exec_ldReg (x y : Nibble) (s : State) :
    exec (.ldReg x y) s = .next (s.writeV x (s.readV y)).advance := rfl

theorem wordIs_ldByte (x : Nibble) (kk : Byte) : WordIs (.ldByte x kk) (fmtXKK 0x6#4 x kk) :=
  ⟨rfl, by simp [decodeWord]⟩

theorem wordIs_addByte (x : Nibble) (kk : Byte) : WordIs (.addByte x kk) (fmtXKK 0x7#4 x kk) :=
  ⟨rfl, by simp [decodeWord]⟩

theorem wordIs_ldReg (x y : Nibble) : WordIs (.ldReg x y) (fmtXYN 0x8#4 x y 0x0#4) :=
  ⟨rfl, by simp [decodeWord, decodeFamily8]⟩

end Sys2Proof.Machine

namespace Sys2Proof.Proofs

open Sys2Proof.Machine

/-- Settles O22: each of the three is one write of Vx and an advance; the value is the byte written, for
7xkk the sum modulo 256. -/
theorem loadsAndByteAddWriteOnlyVx : Obligations.LoadsAndByteAddWriteOnlyVx := by
  intro s x y kk
  have hsum : ((s.writeV x (s.readV x + kk)).advance.readV x).toNat =
      ((s.readV x).toNat + kk.toNat) % 256 := by
    rw [s.readV_writeV_advance, BitVec.toNat_add]
  refine ⟨?_, ?_, ?_⟩
  · exact ⟨wordIs_ldByte x kk, _, exec_ldByte x kk s, s.readV_writeV_advance x kk,
      s.onlyRegs_writeV_advance x _, State.advancedBy_advance rfl⟩
  · exact ⟨wordIs_addByte x kk, _, exec_addByte x kk s, hsum,
      s.onlyRegs_writeV_advance x _, State.advancedBy_advance rfl⟩
  · exact ⟨wordIs_ldReg x y, _, exec_ldReg x y s, s.readV_writeV_advance x _,
      s.onlyRegs_writeV_advance x _, State.advancedBy_advance rfl⟩

end Sys2Proof.Proofs
end

section
/-! Address register: what an instruction that ends in one write of I leaves, and the load of I. -/

namespace Sys2Proof.Machine

/-- Setting I and advancing writes I, PC and the outcome port only. -/
theorem State.onlyI_setI_advance (s : State) (w : Word) : OnlyI s { s with i := w }.advance :=
  ⟨rfl, fun _ => rfl⟩

/-- Widening an address to 16 bits keeps its value (R72). -/
@[simp] theorem addrWord_toNat (nnn : Addr12) : (addrWord nnn).toNat = nnn.toNat :=
  BitVec.toNat_setWidth_of_le (by decide)

/-- Annn sets I to nnn (R161). -/
theorem exec_ldI (nnn : Addr12) (s : State) :
    exec (.ldI nnn) s = .next { s with i := addrWord nnn }.advance := rfl

theorem wordIs_ldI (nnn : Addr12) : WordIs (.ldI nnn) (fmtA12 0xA#4 nnn) :=
  ⟨rfl, by simp [decodeWord]⟩

end Sys2Proof.Machine

namespace Sys2Proof.Proofs

open Sys2Proof.Machine

/-- Settles O35: the load is one write of I and an advance; widening nnn keeps its value, so any nnn is
legal. -/
theorem loadAddressWritesOnlyI : Obligations.LoadAddressWritesOnlyI := by
  intro s nnn
  exact ⟨wordIs_ldI nnn, _, exec_ldI nnn s, addrWord_toNat nnn, s.onlyI_setI_advance _,
    State.advancedBy_advance rfl⟩

end Sys2Proof.Proofs
end

section
/-! Timers: what an instruction that ends in one write of DT leaves, and the moves from and to the delay
timer. -/

namespace Sys2Proof.Machine

/-- Only DT, PC and the outcome port may differ. -/
def OnlyDT (s t : State) : Prop :=
  t = { s with dt := t.dt, pc := t.pc, outcome := t.outcome } ∧ KeepsMemory s t

/-- Setting DT and advancing writes DT, PC and the outcome port only. -/
theorem State.onlyDT_setDT_advance (s : State) (b : Byte) : OnlyDT s { s with dt := b }.advance :=
  ⟨rfl, fun _ => rfl⟩

/-- After setting DT and advancing, DT is the byte written. -/
theorem State.dt_setDT_advance (s : State) (b : Byte) : { s with dt := b }.advance.dt = b := rfl

/-- Fx07 writes DT, as it stands, to Vx (R202). -/
theorem exec_ldVxDT (x : Nibble) (s : State) :
    exec (.ldVxDT x) s = .next (s.writeV x s.dt).advance := rfl

/-- Fx15 sets DT to Vx (R204). -/
theorem exec_ldDTVx (x : Nibble) (s : State) :
    exec (.ldDTVx x) s = .next { s with dt := s.readV x }.advance := rfl

theorem wordIs_ldVxDT (x : Nibble) : WordIs (.ldVxDT x) (fmtXKK 0xF#4 x 0x07#8) :=
  ⟨rfl, by simp [decodeWord, decodeFamilyF]⟩

theorem wordIs_ldDTVx (x : Nibble) : WordIs (.ldDTVx x) (fmtXKK 0xF#4 x 0x15#8) :=
  ⟨rfl, by simp [decodeWord, decodeFamilyF]⟩

end Sys2Proof.Machine

namespace Sys2Proof.Proofs

open Sys2Proof.Machine

/-- Settles O45: Fx07 is one write of Vx and an advance, Fx15 one write of DT and an advance. -/
theorem delayTimerMovesCopyOneByte : Obligations.DelayTimerMovesCopyOneByte := by
  intro s x
  constructor
  · exact ⟨wordIs_ldVxDT x, _, exec_ldVxDT x s, s.readV_writeV_advance x s.dt,
      s.onlyRegs_writeV_advance x _, State.advancedBy_advance rfl⟩
  · obtain ⟨hframe, hmem⟩ := s.onlyDT_setDT_advance (s.readV x)
    exact ⟨wordIs_ldDTVx x, _, exec_ldDTVx x s, s.dt_setDT_advance _, hframe, hmem,
      State.advancedBy_advance rfl⟩

end Sys2Proof.Proofs
end

section
/-! Exceptions: the redraw point in its two cases. -/

namespace Sys2Proof.Machine

/-- With Dirty set, the redraw point puts out the display as it stands and clears Dirty (R235). -/
theorem State.redrawPoint_of_dirty {s : State} (hdirty : s.dirty = true) :
    s.redrawPoint = { s with dirty := false, outputs := .redraw s.disp :: s.outputs } := by
  have hout : s.redrawPoint.outputs = .redraw s.disp :: s.outputs := by
    rw [s.redrawPoint_outputs, if_pos hdirty]
  rw [s.redrawPoint_only_dirty, hout]

/-- With Dirty clear, the redraw point changes nothing (R235). -/
theorem State.redrawPoint_of_clean {s : State} (hclean : s.dirty = false) : s.redrawPoint = s := by
  have hout : s.redrawPoint.outputs = s.outputs := by
    rw [s.redrawPoint_outputs, if_neg (Bool.eq_false_iff.mp hclean)]
  rw [s.redrawPoint_only_dirty, hout, ← hclean]

end Sys2Proof.Machine

namespace Sys2Proof.Proofs

open Sys2Proof.Machine

/-- Settles O17, one clause for each value of Dirty. -/
theorem redrawPointHandsOverTheDirtyBuffer : Obligations.RedrawPointHandsOverTheDirtyBuffer :=
  ⟨fun _ hdirty => State.redrawPoint_of_dirty hdirty,
    fun _ hclean => State.redrawPoint_of_clean hclean⟩

end Sys2Proof.Proofs
end

section
/-! Encoding over the whole instruction set: decoding an encoded word, encoding a decoded one, and the rows of
the opcode map. -/

namespace Sys2Proof

/-- The decoder reads an instruction's own word as that instruction, field by field (R71, R77). -/
theorem decodeWord_encode (i : Instr) : decodeWord (encode i) = some i := by
  cases i with
  | cls => rfl
  | ret => rfl
  | _ => simp [encode, decodeWord, decodeFamily8, decodeFamilyE, decodeFamilyF]

/-- Decoding the two bytes of a word, whatever follows them, is decoding the word (R55, R70). -/
theorem decode_bytesOfWord {w : Word} {i : Instr} (h : decodeWord w = some i) (rest : List Byte) :
    decode (bytesOfWord w ++ rest) = .instr i rest := by
  simp [bytesOfWord, decode, h]

/-- An operation of family 8 has n as its low nibble. -/
theorem encode_of_decodeFamily8 {x y n : Nibble} {i : Instr} (h : decodeFamily8 x y n = some i) :
    encode i = fmtXYN 0x8#4 x y n := by
  have low (k : Nat) (hk : n.toNat = k) : n = BitVec.ofNat 4 k := by simp [← hk]
  unfold decodeFamily8 at h
  split at h
  case h_10 => cases h
  all_goals
    cases h
    rw [low _ ‹_›]
    rfl

/-- A key skip has kk as its low byte. -/
theorem encode_of_decodeFamilyE {x : Nibble} {kk : Byte} {i : Instr} (h : decodeFamilyE x kk = some i) :
    encode i = fmtXKK 0xE#4 x kk := by
  unfold decodeFamilyE at h
  split_ifs at h <;> cases h <;> subst kk <;> rfl

/-- An operation of family F has kk as its low byte. -/
theorem encode_of_decodeFamilyF {x : Nibble} {kk : Byte} {i : Instr} (h : decodeFamilyF x kk = some i) :
    encode i = fmtXKK 0xF#4 x kk := by
  unfold decodeFamilyF at h
  split_ifs at h <;> cases h <;> subst kk <;> rfl

/-- A word of family 0 that decodes is one of the two exact words. -/
theorem encode_of_decodeFamily0 {w : Word} {i : Instr} (h : decodeFamily0 w = some i) : encode i = w := by
  unfold decodeFamily0 at h
  split_ifs at h with h1 h2 <;> cases h
  · exact h1.symm
  · exact h2.symm

section
variable {w : Word} {k : Nat} (hf : (fieldFamily w).toNat = k)
include hf

theorem fieldFamily_of_toNat : fieldFamily w = BitVec.ofNat 4 k := by
  simp [← hf]

/-- A word of family k, put together again in format A12. -/
theorem fmtA12_of_family : fmtA12 (BitVec.ofNat 4 k) (fieldNNN w) = w := by
  rw [← fieldFamily_of_toNat hf, fmtA12_fields]

/-- A word of family k, put together again in format XKK. -/
theorem fmtXKK_of_family : fmtXKK (BitVec.ofNat 4 k) (fieldX w) (fieldKK w) = w := by
  rw [← fieldFamily_of_toNat hf, fmtXKK_fields]

/-- A word of family k, put together again in format XYN. -/
theorem fmtXYN_of_family : fmtXYN (BitVec.ofNat 4 k) (fieldX w) (fieldY w) (fieldN w) = w := by
  rw [← fieldFamily_of_toNat hf, fmtXYN_fields]

end

/-- The word of a decoded instruction is the word decoded: put together again from its fields, in the format
of its family (R71, R74). -/
theorem encode_of_decodeWord {w : Word} {i : Instr} (h : decodeWord w = some i) : encode i = w := by
  unfold decodeWord at h
  split at h
  · exact encode_of_decodeFamily0 h
  · next hf => cases h; exact fmtA12_of_family hf
  · next hf => cases h; exact fmtA12_of_family hf
  · next hf => cases h; exact fmtXKK_of_family hf
  · next hf => cases h; exact fmtXKK_of_family hf
  · next hf =>
    split_ifs at h with hn
    cases h
    rw [encode, ← hn]
    exact fmtXYN_of_family hf
  · next hf => cases h; exact fmtXKK_of_family hf
  · next hf => cases h; exact fmtXKK_of_family hf
  · next hf => exact (encode_of_decodeFamily8 h).trans (fmtXYN_of_family hf)
  · next hf =>
    split_ifs at h with hn
    cases h
    rw [encode, ← hn]
    exact fmtXYN_of_family hf
  · next hf => cases h; exact fmtA12_of_family hf
  · next hf => cases h; exact fmtA12_of_family hf
  · next hf => cases h; exact fmtXKK_of_family hf
  · next hf => cases h; exact fmtXYN_of_family hf
  · next hf => exact (encode_of_decodeFamilyE h).trans (fmtXKK_of_family hf)
  · next hf => exact (encode_of_decodeFamilyF h).trans (fmtXKK_of_family hf)
  · cases h

end Sys2Proof
end

section
/-! The opcode map: every instruction has a row, and a word that fits a row decodes to an instruction of it. -/

namespace Sys2Proof

theorem row_mem_opcodeMap (i : Instr) : i.row ∈ opcodeMap := by
  cases i <;> simp [Instr.row, opcodeMap, opcodeMapLow, opcodeMapHigh]

/-- One instruction for each row of the opcode map, in the table's order (R77). -/
def rowInstrs : List Instr :=
  [.cls, .ret, .jp 0, .call 0, .seByte 0 0, .sneByte 0 0, .seReg 0 0, .ldByte 0 0, .addByte 0 0,
   .ldReg 0 0, .orReg 0 0, .andReg 0 0, .xorReg 0 0, .addReg 0 0, .subReg 0 0, .shr 0 0, .subnReg 0 0,
   .shl 0 0, .sneReg 0 0, .ldI 0, .jpV0 0, .rnd 0 0, .drw 0 0 0, .skp 0, .sknp 0, .ldVxDT 0, .ldVxK 0,
   .ldDTVx 0, .ldSTVx 0, .addI 0, .ldF 0, .ldB 0, .storeRegs 0, .loadRegs 0]

/-- Every row of the opcode map is some instruction's. -/
theorem exists_instr_of_mem_opcodeMap {r : OpcodeRow} (hr : r ∈ opcodeMap) : ∃ i : Instr, i.row = r := by
  have hmap : opcodeMap = rowInstrs.map Instr.row := rfl
  rw [hmap, List.mem_map] at hr
  obtain ⟨i, -, hi⟩ := hr
  exact ⟨i, hi⟩

/-- The word of an instruction fits its row (R74). -/
theorem row_fits_encode (i : Instr) : i.row.fits (encode i) = true := by
  rw [OpcodeRow.fits, beq_iff_eq]
  cases i with
  | cls | ret => rfl
  | jp | call | ldI | jpV0 => exact (mask_family_A12 _ _).trans rfl
  | seByte | sneByte | ldByte | addByte | rnd => exact (mask_family_XKK _ _ _).trans rfl
  | drw => exact (mask_family_XYN _ _ _ _).trans rfl
  | seReg | sneReg | ldReg | orReg | andReg | xorReg | addReg | subReg | shr | subnReg | shl =>
    exact (mask_family_low _ _ _ _).trans rfl
  | _ => exact (mask_family_byte _ _ _).trans rfl

variable {w p : Word}

/-- A word that fits a row with the mask 0xF000 has the family of its pattern. -/
theorem family_of_fits (h : OpcodeRow.fits ⟨0xF000#16, p⟩ w = true) : fieldFamily w = fieldFamily p := by
  rw [OpcodeRow.fits, beq_iff_eq, and_family_mask] at h
  subst h
  simp

/-- A word that fits a row with the mask 0xF00F has the family and the n of its pattern. -/
theorem family_n_of_fits (h : OpcodeRow.fits ⟨0xF00F#16, p⟩ w = true) :
    fieldFamily w = fieldFamily p ∧ fieldN w = fieldN p := by
  rw [OpcodeRow.fits, beq_iff_eq, and_sub_mask] at h
  subst h
  simp

/-- A word that fits a row with the mask 0xF0FF has the family and the kk of its pattern. -/
theorem family_kk_of_fits (h : OpcodeRow.fits ⟨0xF0FF#16, p⟩ w = true) :
    fieldFamily w = fieldFamily p ∧ fieldKK w = fieldKK p := by
  rw [OpcodeRow.fits, beq_iff_eq, and_low_mask] at h
  subst h
  simp

theorem eq_of_fits_exact (h : OpcodeRow.fits ⟨0xFFFF#16, p⟩ w = true) : w = p := by
  have hall : w &&& 0xFFFF#16 = w := BitVec.and_allOnes
  simpa [OpcodeRow.fits, hall] using h

/-- A word that fits an instruction's row decodes to an instruction of that row: its family, and the n or the
kk the row asks for, are all the decoder looks at (R74). -/
theorem exists_decodeWord_of_row_fits {i : Instr} (h : i.row.fits w = true) :
    ∃ j, decodeWord w = some j ∧ j.row = i.row := by
  cases i with
  | cls | ret =>
    rw [eq_of_fits_exact h]
    exact ⟨_, rfl, rfl⟩
  | jp | call | seByte | sneByte | ldByte | addByte | ldI | jpV0 | rnd | drw =>
    rw [decodeWord, family_of_fits h]
    exact ⟨_, rfl, rfl⟩
  | seReg | sneReg | ldReg | orReg | andReg | xorReg | addReg | subReg | shr | subnReg | shl =>
    obtain ⟨hf, hn⟩ := family_n_of_fits h
    rw [decodeWord, hf, hn]
    exact ⟨_, rfl, rfl⟩
  | _ =>
    obtain ⟨hf, hkk⟩ := family_kk_of_fits h
    rw [decodeWord, hf, hkk]
    exact ⟨_, rfl, rfl⟩

end Sys2Proof
end

section
/-! The unmatched words (R79), and the statements about the encoding. -/

namespace Sys2Proof

/-- The unmatched words of family 8 (R79). -/
theorem decodeFamily8_eq_none (x y n : Nibble) : decodeFamily8 x y n = none ↔
    n ∈ [0x8#4, 0x9#4, 0xA#4, 0xB#4, 0xC#4, 0xD#4, 0xF#4] := by
  obtain ⟨k, hk⟩ := n
  interval_cases k <;> simp [decodeFamily8]

/-- The unmatched words of family 0 (R79). -/
theorem decodeFamily0_eq_none (w : Word) : decodeFamily0 w = none ↔ w ≠ 0x00E0#16 ∧ w ≠ 0x00EE#16 := by
  unfold decodeFamily0
  split_ifs <;> simp [*]

/-- The unmatched words of family E (R79). -/
theorem decodeFamilyE_eq_none (x : Nibble) (kk : Byte) :
    decodeFamilyE x kk = none ↔ kk ∉ [0x9E#8, 0xA1#8] := by
  unfold decodeFamilyE
  split_ifs <;> simp [*]

/-- The unmatched words of family F (R79). -/
theorem decodeFamilyF_eq_none (x : Nibble) (kk : Byte) : decodeFamilyF x kk = none ↔
    kk ∉ [0x07#8, 0x0A#8, 0x15#8, 0x18#8, 0x1E#8, 0x29#8, 0x33#8, 0x55#8, 0x65#8] := by
  unfold decodeFamilyF
  split_ifs <;> simp [*]

end Sys2Proof

namespace Sys2Proof.Proofs

open Sys2Proof.Machine

/-- Settles O2, through the word: it is read back as the instruction, and its two bytes make it. -/
theorem decodeOfEncodeIsTheInstruction : Obligations.DecodeOfEncodeIsTheInstruction :=
  fun i rest => decode_bytesOfWord (decodeWord_encode i) rest

/-- Settles O3: each field of the word is a field of the instruction. -/
theorem encodeOfDecodedWordIsTheWord : Obligations.EncodeOfDecodedWordIsTheWord :=
  fun _ _ => encode_of_decodeWord

/-- Settles O4: a decoded word is its instruction's own, so it fits that row; and a row that fits a word is the
row of the instruction the word decodes to, so there is no second one. -/
theorem decoderFollowsTheOpcodeMap : Obligations.DecoderFollowsTheOpcodeMap := by
  intro w
  have hrow : ∀ r ∈ opcodeMap, r.fits w = true → ∃ i, decodeWord w = some i ∧ i.row = r := by
    intro r hr hfit
    obtain ⟨i, rfl⟩ := exists_instr_of_mem_opcodeMap hr
    exact exists_decodeWord_of_row_fits hfit
  have hfits : ∀ i, decodeWord w = some i → i.row ∈ opcodeMap ∧ i.row.fits w = true := by
    intro i hi
    refine ⟨row_mem_opcodeMap i, ?_⟩
    simpa [encode_of_decodeWord hi] using row_fits_encode i
  refine ⟨hfits, ⟨fun hnone r hr => ?_, fun hno => ?_⟩, fun r hr r' hr' hfit hfit' => ?_⟩
  · by_contra hfit
    obtain ⟨i, hi, -⟩ := hrow r hr (Bool.eq_true_of_not_eq_false hfit)
    simp [hnone] at hi
  · by_contra hsome
    obtain ⟨i, hi⟩ := Option.ne_none_iff_exists'.mp hsome
    obtain ⟨hmem, hfit⟩ := hfits i hi
    simp [hno _ hmem] at hfit
  · obtain ⟨i, hi, rfl⟩ := hrow r hr hfit
    obtain ⟨j, hj, rfl⟩ := hrow r' hr' hfit'
    rw [Option.some.inj (hi.symm.trans hj)]

/-- Settles O5, family by family. -/
theorem unmatchedWordsAreThoseOfTheTable : Obligations.UnmatchedWordsAreThoseOfTheTable := by
  intro w
  rw [decodeWord, ← decodeFamily0_eq_none w, ← decodeFamily8_eq_none (fieldX w) (fieldY w),
    ← decodeFamilyE_eq_none (fieldX w), ← decodeFamilyF_eq_none (fieldX w)]
  generalize fieldFamily w = f
  obtain ⟨k, hk⟩ := f
  interval_cases k <;> simp

/-- Settles O1: each of the words is decoded. -/
theorem wordsOfTheSpecDecode : Obligations.WordsOfTheSpecDecode := by
  unfold Obligations.WordsOfTheSpecDecode
  decide

end Sys2Proof.Proofs
end

section
/-! What an instruction does, said once for all 34: it takes the fault of the table, or waits for a key, or makes
its own writes and ends with PC at its target (R75, R76). -/

namespace Sys2Proof

open Sys2Proof.Machine Sys2Proof.Claims

/-- The state after the instruction's own writes, PC not yet moved, where it neither faults nor waits. -/
def Instr.work (i : Instr) (s : State) : State :=
  match i with
  | .cls => { s with disp := Vector.replicate 32 0, dirty := true }
  | .ret => s.pop
  | .call _ => if h : s.sp.val < 64 then s.push (s.pc + 2#16) h else s
  | .ldByte x kk => s.writeV x kk
  | .addByte x kk => s.writeV x (s.readV x + kk)
  | .ldReg x y => s.writeV x (s.readV y)
  | .orReg x y => s.writeV x (s.readV x ||| s.readV y)
  | .andReg x y => s.writeV x (s.readV x &&& s.readV y)
  | .xorReg x y => s.writeV x (s.readV x ^^^ s.readV y)
  | .addReg x y => s.writeResultFlag x (s.readV x + s.readV y) (carryFlag (s.readV x) (s.readV y))
  | .subReg x y => s.writeResultFlag x (s.readV x - s.readV y) (noBorrowFlag (s.readV x) (s.readV y))
  | .shr x _ => s.writeResultFlag x (s.readV x >>> 1) (shiftedOutLow (s.readV x))
  | .subnReg x y => s.writeResultFlag x (s.readV y - s.readV x) (noBorrowFlag (s.readV y) (s.readV x))
  | .shl x _ => s.writeResultFlag x (s.readV x <<< 1) (shiftedOutHigh (s.readV x))
  | .ldI nnn => { s with i := addrWord nnn }
  | .rnd x kk => s.afterDraw.writeV x (s.randomByte &&& kk)
  | .drw x y n => s.takeCanvas (s.drawn x y n)
  | .ldVxDT x => s.writeV x s.dt
  | .ldVxK x => s.writeV x ((highestKey s.keys).getD 0)
  | .ldDTVx x => { s with dt := s.readV x }
  | .ldSTVx x => { s with st := s.readV x }
  | .addI x => { s with i := s.i + zextByte (s.readV x) }
  | .ldF x => { s with i := zextByte (s.readV x) * 5#16 }
  | .ldB x => s.storeAtI (decimalDigits (s.readV x))
  | .storeRegs x => (s.storeAtI (s.firstRegs (x.toNat + 1))).bumpI (x.toNat + 1)
  | .loadRegs x => (s.loadFirst (x.toNat + 1)).bumpI (x.toNat + 1)
  | .jp _ | .jpV0 _ | .seByte _ _ | .sneByte _ _ | .seReg _ _ | .sneReg _ _ | .skp _ | .sknp _ => s

/-- Where PC goes when the instruction advances (R75). -/
def Instr.target (i : Instr) (s : State) : Word :=
  match i with
  | .ret => s.top
  | .jp nnn | .call nnn => addrWord nnn
  | .jpV0 nnn => addrWord nnn + zextByte (s.readV 0x0#4)
  | .seByte x kk => if s.readV x == kk then s.pc + 4#16 else s.pc + 2#16
  | .sneByte x kk => if s.readV x != kk then s.pc + 4#16 else s.pc + 2#16
  | .seReg x y => if s.readV x == s.readV y then s.pc + 4#16 else s.pc + 2#16
  | .sneReg x y => if s.readV x != s.readV y then s.pc + 4#16 else s.pc + 2#16
  | .skp x => if s.keyDown (s.readV x) then s.pc + 4#16 else s.pc + 2#16
  | .sknp x => if !s.keyDown (s.readV x) then s.pc + 4#16 else s.pc + 2#16
  | _ => s.pc + 2#16

/-- The instruction is Fx0A and no key is pressed (R203). -/
def Instr.Waits (i : Instr) (s : State) : Prop := (∃ x, i = .ldVxK x) ∧ highestKey s.keys = none

/-- Every instruction takes its fault of the table, waits, or does its work and goes to its target. -/
theorem exec_cases (i : Instr) (s : State) :
    (∃ f, faultOf i s = some f ∧ exec i s = .next (s.raiseFault f)) ∨
    (faultOf i s = none ∧ i.Waits s ∧ exec i s = .next s.waitForKey) ∨
    (faultOf i s = none ∧ exec i s = .next ((i.work s).jumpTo (i.target s))) := by
  cases i with
  | ret =>
    obtain ⟨hsp, he⟩ | ⟨hsp, he⟩ := execRet_cases s
    · exact .inl ⟨_, if_pos hsp, he⟩
    · exact .inr (.inr ⟨if_neg (by omega), he⟩)
  | call nnn =>
    obtain ⟨hsp, he⟩ | ⟨hsp, he⟩ := execCall_cases nnn s
    · exact .inl ⟨_, if_pos hsp, he⟩
    · refine .inr (.inr ⟨if_neg (by omega), ?_⟩)
      rw [he, Instr.work, dif_pos hsp]
      rfl
  | drw x y n =>
    obtain ⟨hn, hout, he⟩ | ⟨hin, he⟩ := execDrw_cases x y n s
    · exact .inl ⟨_, if_pos ⟨hn, by omega⟩, he⟩
    · exact .inr (.inr ⟨if_neg (by omega), he⟩)
  | skp x =>
    obtain ⟨hk, he⟩ | ⟨hk, he⟩ := execSkp_cases x s
    · exact .inl ⟨_, if_pos hk, he⟩
    · exact .inr (.inr ⟨if_neg (by omega), he⟩)
  | sknp x =>
    obtain ⟨hk, he⟩ | ⟨hk, he⟩ := execSknp_cases x s
    · exact .inl ⟨_, if_pos hk, he⟩
    · exact .inr (.inr ⟨if_neg (by omega), he⟩)
  | ldVxK x =>
    obtain ⟨hk, he⟩ | ⟨k, hk, he⟩ := execLdVxK_cases x s
    · exact .inr (.inl ⟨rfl, ⟨⟨x, rfl⟩, hk⟩, he⟩)
    · refine .inr (.inr ⟨rfl, ?_⟩)
      rw [he, Instr.work, hk]
      rfl
  | ldB x =>
    obtain ⟨hout, he⟩ | ⟨hin, he⟩ := execLdB_cases x s
    · exact .inl ⟨_, if_pos hout, he⟩
    · exact .inr (.inr ⟨if_neg (by omega), he⟩)
  | storeRegs x =>
    obtain ⟨hout, he⟩ | ⟨hin, he⟩ := execStoreRegs_cases x s
    · exact .inl ⟨_, if_pos hout, he⟩
    · exact .inr (.inr ⟨if_neg (by omega), he⟩)
  | loadRegs x =>
    obtain ⟨hout, he⟩ | ⟨hin, he⟩ := execLoadRegs_cases x s
    · exact .inl ⟨_, if_pos hout, he⟩
    · refine .inr (.inr ⟨if_neg (by omega), ?_⟩)
      rw [he, State.advance]
      simp [Instr.work, Instr.target]
  | _ => exact .inr (.inr ⟨rfl, rfl⟩)

section
variable {i : Instr} {s : State}

theorem exec_of_waits (hw : i.Waits s) : exec i s = .next s.waitForKey := by
  obtain ⟨⟨x, rfl⟩, hnone⟩ := hw
  obtain ⟨-, he⟩ | ⟨k, hk, -⟩ := execLdVxK_cases x s
  · exact he
  · simp [hnone] at hk

theorem exec_of_fault {f : Fault} (hf : faultOf i s = some f) : exec i s = .next (s.raiseFault f) := by
  obtain ⟨g, hg, he⟩ | ⟨hno, -, -⟩ | ⟨hno, -⟩ := exec_cases i s
  · rw [he, Option.some.inj (hf.symm.trans hg)]
  · simp [hf] at hno
  · simp [hf] at hno

theorem exec_of_work (hno : faultOf i s = none) (hw : ¬ i.Waits s) :
    exec i s = .next ((i.work s).jumpTo (i.target s)) := by
  obtain ⟨f, hf, -⟩ | ⟨-, hwait, -⟩ | ⟨-, he⟩ := exec_cases i s
  · simp [hf] at hno
  · exact absurd hwait hw
  · exact he

end

/-- Without its fault, Fx33 stays in bounds. -/
theorem ldB_in_bounds {x : Nibble} {s : State} (hno : faultOf (.ldB x) s = none) : s.i.toNat + 2 ≤ 0xFFF := by
  by_contra hout
  simp [faultOf, hout] at hno

/-- Without its fault, Fx55 stays in bounds. -/
theorem storeRegs_in_bounds {x : Nibble} {s : State} (hno : faultOf (.storeRegs x) s = none) :
    s.i.toNat + x.toNat ≤ 0xFFF := by
  by_contra hout
  simp [faultOf, hout] at hno

/-- Every instruction answers a next state. -/
theorem exec_next (i : Instr) (s : State) : ∃ t, exec i s = .next t := by
  obtain ⟨f, -, he⟩ | ⟨-, -, he⟩ | ⟨-, he⟩ := exec_cases i s <;> exact ⟨_, he⟩

/-- What the next state of an instruction is. -/
theorem exec_inv {i : Instr} {s t : State} (h : exec i s = .next t) :
    (∃ f, faultOf i s = some f ∧ t = s.raiseFault f) ∨
    (faultOf i s = none ∧ i.Waits s ∧ t = s.waitForKey) ∨
    (faultOf i s = none ∧ t = (i.work s).jumpTo (i.target s)) := by
  obtain ⟨f, hf, he⟩ | ⟨hf, hw, he⟩ | ⟨hf, he⟩ := exec_cases i s <;> rw [he] at h <;> cases h
  · exact .inl ⟨f, hf, rfl⟩
  · exact .inr (.inl ⟨hf, hw, rfl⟩)
  · exact .inr (.inr ⟨hf, rfl⟩)

/-- No instruction's work writes PC, the key latch, the run state, or any port or host field. -/
@[simp] theorem Instr.work_fields (i : Instr) (s : State) :
    (i.work s).pc = s.pc ∧ (i.work s).keys = s.keys ∧ (i.work s).runState = s.runState ∧
    (i.work s).stopPending = s.stopPending ∧ (i.work s).outcome = s.outcome ∧
    (i.work s).outputs = s.outputs ∧ (i.work s).script = s.script ∧ (i.work s).turns = s.turns ∧
    (i.work s).font = s.font := by
  cases i with
  | call nnn => rw [Instr.work]; split <;> simp
  | _ => simp [Instr.work]

/-- What no instruction changes in any case: the key latch, the stop latch, the outputs, the host's fields. -/
theorem exec_frame {i : Instr} {s t : State} (h : exec i s = .next t) :
    t.keys = s.keys ∧ t.stopPending = s.stopPending ∧ t.outputs = s.outputs ∧ t.script = s.script ∧
    t.turns = s.turns ∧ t.font = s.font := by
  obtain ⟨f, -, rfl⟩ | ⟨-, -, rfl⟩ | ⟨-, rfl⟩ := exec_inv h <;> simp

/-- The stack work of an instruction is CALL's and RET's alone (R27). -/
theorem Instr.work_stack (i : Instr) (s : State) :
    i = .ret ∨ (∃ nnn, i = .call nnn) ∨ ((i.work s).sp = s.sp ∧ (i.work s).stack = s.stack) := by
  cases i with
  | ret => exact .inl rfl
  | call nnn => exact .inr (.inl ⟨nnn, rfl⟩)
  | _ => exact .inr (.inr (by simp [Instr.work]))

/-- The memory work of an instruction is the two stores' alone (R50). -/
theorem Instr.work_mem (i : Instr) (s : State) :
    (∃ x, i = .ldB x) ∨ (∃ x, i = .storeRegs x) ∨ (i.work s).mem = s.mem := by
  cases i with
  | ldB x => exact .inl ⟨x, rfl⟩
  | storeRegs x => exact .inr (.inl ⟨x, rfl⟩)
  | call nnn => rw [Instr.work]; split <;> simp
  | _ => exact .inr (.inr (by simp [Instr.work]))

/-- The work of an instruction that may not write VF keeps it (R22). -/
theorem Instr.work_vf (i : Instr) (s : State) (h : ¬ mayWriteVF i) :
    (i.work s).readV vf = s.readV vf := by
  cases i with
  | call nnn => rw [Instr.work]; split <;> rfl
  | loadRegs x =>
    have hx : x.toNat + 1 ≤ 15 := by
      have : x.toNat ≠ 15 := fun e => h (BitVec.eq_of_toNat_eq e)
      omega
    rw [Instr.work, State.readV_bumpI, State.readV_loadFirst _ _ (by omega), if_neg]
    simpa using hx
  | ldByte x | addByte x | ldReg x | orReg x | andReg x | xorReg x | rnd x | ldVxDT x | ldVxK x =>
    have hx : vf ≠ x := fun e => h e.symm
    simp [Instr.work, State.readV_writeV, hx]
  | addReg | subReg | shr | subnReg | shl | drw => exact absurd trivial h
  | _ => rfl

end Sys2Proof
end

section
/-! The instruction step, the host's turn, the tick point and the end of a cycle: what each can do. -/

namespace Sys2Proof.Machine

open Sys2Proof.Claims

/-! ## The instruction step -/

/-- With no key found pressed below 16 the latch is zero. -/
theorem keys_eq_zero_of_highestKey {keys : BitVec 16} (h : highestKey keys = none) : keys = 0 := by
  apply BitVec.eq_of_getLsbD_eq
  intro k hk
  simpa using (highestBelow_none keys 16).mp h k hk

/-- The instruction step answers a next state. -/
theorem runInstruction_next (s : State) : ∃ t, runInstruction s = .next t := by
  obtain ⟨-, hrun⟩ | ⟨-, i, -, hrun⟩ | ⟨-, -, hrun⟩ := runInstruction_cases s
  · exact ⟨_, hrun⟩
  · rw [hrun]; exact exec_next i s
  · exact ⟨_, hrun⟩

/-- What the next state of the instruction step is. -/
theorem runInstruction_inv {s t : State} (h : runInstruction s = .next t) :
    (0xFFE < s.pc.toNat ∧ t = s.raiseFault (.fetchOutOfBounds s.pc)) ∨
    (s.pc.toNat ≤ 0xFFE ∧ ∃ i, decodeWord (s.mem.word s.pc.toNat) = some i ∧ exec i s = .next t) ∨
    (s.pc.toNat ≤ 0xFFE ∧ t = s.advance) := by
  obtain ⟨hpc, hrun⟩ | ⟨hpc, i, hi, hrun⟩ | ⟨hpc, -, hrun⟩ := runInstruction_cases s <;> rw [hrun] at h
  · cases h; exact .inl ⟨hpc, rfl⟩
  · exact .inr (.inl ⟨hpc, i, hi, h⟩)
  · cases h; exact .inr (.inr ⟨hpc, rfl⟩)

/-- A word at PC that decodes is executed. -/
theorem runInstruction_of_decodeWord {s : State} {i : Instr} (hpc : s.pc.toNat ≤ 0xFFE)
    (hi : decodeWord (s.mem.word s.pc.toNat) = some i) : runInstruction s = exec i s := by
  obtain ⟨hout, -⟩ | ⟨-, j, hj, hrun⟩ | ⟨-, hnone, -⟩ := runInstruction_cases s
  · omega
  · rw [hrun, Option.some.inj (hi.symm.trans hj)]
  · simp [hi] at hnone

/-- Past the last fetch address the instruction step is the fetch fault (R73). -/
theorem runInstruction_of_fetchFault {s : State} (hpc : 0xFFE < s.pc.toNat) :
    runInstruction s = .next (s.raiseFault (.fetchOutOfBounds s.pc)) := by
  obtain ⟨-, hrun⟩ | ⟨hin, -⟩ | ⟨hin, -⟩ := runInstruction_cases s
  · exact hrun
  · omega
  · omega

/-- The instruction step changes the run state only by a fault, and a fault changes nothing but the run state
and the outcome (R222). -/
theorem runInstruction_fault_or_keeps_runState {s t : State} (h : runInstruction s = .next t) :
    (∃ f, t = s.raiseFault f) ∨ t.runState = s.runState := by
  obtain ⟨-, rfl⟩ | ⟨-, i, -, he⟩ | ⟨-, rfl⟩ := runInstruction_inv h
  · exact .inl ⟨_, rfl⟩
  · obtain ⟨f, -, rfl⟩ | ⟨-, -, rfl⟩ | ⟨-, rfl⟩ := exec_inv he
    · exact .inl ⟨f, rfl⟩
    · exact .inr (by simp)
    · exact .inr (by simp)
  · exact .inr (by simp)

/-- What no instruction step changes: the key latch, the stop latch, the outputs, the host's fields. -/
theorem runInstruction_frame {s t : State} (h : runInstruction s = .next t) :
    t.keys = s.keys ∧ t.stopPending = s.stopPending ∧ t.outputs = s.outputs ∧ t.script = s.script ∧
    t.turns = s.turns ∧ t.font = s.font := by
  obtain ⟨-, rfl⟩ | ⟨-, i, -, he⟩ | ⟨-, rfl⟩ := runInstruction_inv h
  · simp
  · exact exec_frame he
  · simp

/-! ## The step -/

/-- A step of a running engine is the instruction step and then the end of the cycle. -/
theorem step_of_running {s u : State} (hrun : s.openTurn.runState = .running)
    (hu : runInstruction s.openTurn = .next u) : step s = .next (u.endCycle s.turnTicks) := by
  obtain ⟨-, hs⟩ | ⟨hhalt, -⟩ := step_cases s
  · rw [hs, hu]; rfl
  · exact absurd hrun hhalt

/-- A step of a halted engine is the host's turn (R35). -/
theorem step_of_halted {s : State} (hhalt : s.openTurn.runState ≠ .running) :
    step s = .next s.openTurn := by
  obtain ⟨hrun, -⟩ | ⟨-, hs⟩ := step_cases s
  · exact absurd hrun hhalt
  · exact hs

/-- What the next state of a step is. -/
theorem step_inv {s t : State} (h : step s = .next t) :
    (s.openTurn.runState = .running ∧
      ∃ u, runInstruction s.openTurn = .next u ∧ t = u.endCycle s.turnTicks) ∨
    (s.openTurn.runState ≠ .running ∧ t = s.openTurn) := by
  by_cases hrun : s.openTurn.runState = .running
  · obtain ⟨u, hu⟩ := runInstruction_next s.openTurn
    rw [step_of_running hrun hu] at h
    cases h
    exact .inl ⟨hrun, u, hu, rfl⟩
  · rw [step_of_halted hrun] at h
    cases h
    exact .inr ⟨hrun, rfl⟩

theorem step_next (s : State) : ∃ t, step s = .next t := by
  by_cases hrun : s.openTurn.runState = .running
  · obtain ⟨u, hu⟩ := runInstruction_next s.openTurn
    exact ⟨_, step_of_running hrun hu⟩
  · exact ⟨_, step_of_halted hrun⟩

/-! ## The tick point -/

theorem toNat_sub_one {b : Byte} (h : b ≠ 0) : (b - 1).toNat = b.toNat - 1 := by
  bv_omega

/-- The delay timer's half of a tick (R230). -/
theorem State.tickDelay_counters (s : State) :
    s.tickDelay.dt.toNat = s.dt.toNat - 1 ∧ s.tickDelay.st = s.st ∧ s.tickDelay.outputs = s.outputs := by
  unfold State.tickDelay
  split_ifs with h0
  · exact ⟨by simp [h0], rfl, rfl⟩
  · exact ⟨toNat_sub_one h0, rfl, rfl⟩

/-- The sound timer's half of a tick, with its beep (R230). -/
theorem State.tickSound_counters (s : State) :
    s.tickSound.dt = s.dt ∧ s.tickSound.st.toNat = s.st.toNat - 1 ∧
    s.tickSound.outputs = if s.st.toNat = 1 then .beep :: s.outputs else s.outputs := by
  unfold State.tickSound
  split
  · next h0 => simp [h0]
  · next h0 =>
    split
    · next h1 => simp [h1]
    · next h1 =>
      have hne : s.st.toNat ≠ 1 := fun e => h1 (BitVec.eq_of_toNat_eq e)
      exact ⟨rfl, toNat_sub_one h0, (if_neg hne).symm⟩

/-- One tick, counter by counter (R230). -/
theorem State.tick_counters (s : State) :
    s.tick.dt.toNat = s.dt.toNat - 1 ∧ s.tick.st.toNat = s.st.toNat - 1 ∧
    s.tick.outputs = if s.st.toNat = 1 then .beep :: s.outputs else s.outputs := by
  obtain ⟨hdt, hst, hout⟩ := s.tickDelay_counters
  obtain ⟨hdt', hst', hout'⟩ := s.tickDelay.tickSound_counters
  exact ⟨by rw [State.tick, hdt', hdt], by rw [State.tick, hst', hst], by rw [State.tick, hout', hst, hout]⟩

/-- k ticks, counter by counter: one beep, at the tick that takes ST to zero (R231). -/
theorem State.tickMany_counters (s : State) (k : Nat) :
    (s.tickMany k).dt.toNat = s.dt.toNat - k ∧ (s.tickMany k).st.toNat = s.st.toNat - k ∧
    (s.tickMany k).outputs =
      (if 0 < s.st.toNat ∧ s.st.toNat ≤ k then [Output.beep] else []) ++ s.outputs := by
  induction k generalizing s with
  | zero =>
    have hno : ¬ (0 < s.st.toNat ∧ s.st.toNat ≤ 0) := by omega
    rw [if_neg hno]
    exact ⟨rfl, rfl, rfl⟩
  | succ k ih =>
    obtain ⟨hdt, hst, hout⟩ := s.tick_counters
    obtain ⟨ihdt, ihst, ihout⟩ := ih s.tick
    refine ⟨by rw [State.tickMany, ihdt, hdt]; omega, by rw [State.tickMany, ihst, hst]; omega, ?_⟩
    rw [State.tickMany, ihout, hout, hst]
    by_cases h1 : s.st.toNat = 1
    · simp [h1]
    · have hbeep : (0 < s.st.toNat - 1 ∧ s.st.toNat - 1 ≤ k) ↔ (0 < s.st.toNat ∧ s.st.toNat ≤ k + 1) := by
        omega
      simp only [hbeep, if_neg h1]

/-! ## The end of a cycle -/

/-- The end of a cycle writes the timers, the outputs, Dirty, the run state and the stop latch, nothing else. -/
@[simp] theorem State.endCycle_fields (k : Nat) (t : State) :
    (t.endCycle k).mem = t.mem ∧ (t.endCycle k).v = t.v ∧ (t.endCycle k).i = t.i ∧
    (t.endCycle k).pc = t.pc ∧ (t.endCycle k).sp = t.sp ∧ (t.endCycle k).stack = t.stack ∧
    (t.endCycle k).disp = t.disp ∧ (t.endCycle k).keys = t.keys ∧
    (t.endCycle k).outcome = t.outcome ∧ (t.endCycle k).script = t.script ∧
    (t.endCycle k).rndSupply = t.rndSupply ∧ (t.endCycle k).draws = t.draws ∧
    (t.endCycle k).turns = t.turns ∧ (t.endCycle k).font = t.font := by
  obtain ⟨-, he⟩ | ⟨-, he⟩ := endCycle_cases k t <;> simp [he]

/-- The end of a cycle, after an instruction without fault, is the three points. -/
theorem State.endCycle_of_running (k : Nat) {t : State} (h : t.runState = .running) :
    t.endCycle k = ((t.tickPoint k).redrawPoint).stopPoint := by
  obtain ⟨-, he⟩ | ⟨hno, -⟩ := endCycle_cases k t
  · exact he
  · exact absurd h hno

/-- After a fault the cycle ends at once (R222). -/
theorem State.endCycle_of_halted (k : Nat) {t : State} (h : t.runState ≠ .running) : t.endCycle k = t := by
  obtain ⟨hrun, -⟩ | ⟨-, he⟩ := endCycle_cases k t
  · exact absurd hrun h
  · exact he

/-! ## The host's turn -/

/-- What an event that neither resets the core nor loads an accepted image writes: the key latch, the stop latch
and the outputs. -/
theorem State.hostEvent_only_ports (s : State) {e : HostEvent} (hreset : e ≠ .reset)
    (hload : ∀ bytes, e = .load bytes → imageWf bytes = false) :
    s.hostEvent e =
      { s with keys := (s.hostEvent e).keys, stopPending := (s.hostEvent e).stopPending,
               outputs := (s.hostEvent e).outputs } := by
  cases e with
  | key index pressed => rfl
  | stop => rfl
  | reset => exact absurd rfl hreset
  | load bytes => simp [State.hostEvent, State.loadImage, hload bytes rfl, State.emit]

theorem State.hostEvents_cons (s : State) (e : HostEvent) (rest : List HostEvent) :
    s.hostEvents (e :: rest) = (s.hostEvent e).hostEvents rest := rfl

theorem State.hostEvents_only_ports (s : State) (events : List HostEvent)
    (h : ∀ e ∈ events, e ≠ .reset ∧ ∀ bytes, e = .load bytes → imageWf bytes = false) :
    s.hostEvents events =
      { s with keys := (s.hostEvents events).keys, stopPending := (s.hostEvents events).stopPending,
               outputs := (s.hostEvents events).outputs } := by
  induction events generalizing s with
  | nil => rfl
  | cons e rest ih =>
    have he := s.hostEvent_only_ports (h e (by simp)).1 (h e (by simp)).2
    have hrest := ih (s.hostEvent e) fun e' h' => h e' (by simp [h'])
    rw [he] at hrest
    rw [State.hostEvents_cons, he]
    exact hrest

/-- With no reset coming, the host's turn writes the key latch, the stop latch and the outputs, and is used up. -/
theorem State.openTurn_only_ports {s : State} (h : NoResetComing s) :
    s.openTurn =
      { s with keys := s.openTurn.keys, stopPending := s.openTurn.stopPending,
               outputs := s.openTurn.outputs, script := s.openTurn.script, turns := s.openTurn.turns } := by
  have hev := State.hostEvents_only_ports { s with script := s.script.tail, turns := s.turns + 1 }
    s.turnEvents h
  rw [State.openTurn, hev]

/-- With a reset alone in the coming turn, the turn resets the core. -/
theorem State.openTurn_of_reset {s : State} (h : s.turnEvents = [.reset]) :
    s.openTurn = { s with script := s.script.tail, turns := s.turns + 1 }.resetCore := by
  simp [State.openTurn, h, State.hostEvents, State.hostEvent]

end Sys2Proof.Machine
end

section
/-! The end of a cycle and the halted engine, and the statements about the step, the cycle and the timers. -/

namespace Sys2Proof.Machine

open Sys2Proof.Claims

theorem State.faultTaken_raiseFault (s : State) (f : Fault) : FaultTaken s (s.raiseFault f) f := rfl

/-- The cycle after an instruction without fault, field by field (R240). -/
theorem State.endCycle_points (k : Nat) {u : State} (h : u.runState = .running) :
    (u.endCycle k).dt.toNat = u.dt.toNat - k ∧ (u.endCycle k).st.toNat = u.st.toNat - k ∧
    (u.endCycle k).outputs =
      (if u.dirty then [Output.redraw u.disp] else []) ++
      (if 0 < u.st.toNat ∧ u.st.toNat ≤ k then [Output.beep] else []) ++ u.outputs ∧
    (u.endCycle k).dirty = false ∧
    (u.endCycle k).runState = (if u.stopPending then .stopped else .running) ∧
    (u.endCycle k).stopPending = false := by
  obtain ⟨hdt, hst, hout⟩ := u.tickMany_counters k
  rw [← State.tickPoint_eq] at hdt hst hout
  rw [State.endCycle_of_running k h]
  refine ⟨by simp [hdt], by simp [hst], ?_, by simp, by simp [h], by simp⟩
  cases hd : u.dirty <;> simp [State.redrawPoint_outputs, hout, hd]

/-- The cycle after an instruction without fault writes the timers, the outputs, the run state, Dirty and the stop
latch only, and leaves the last two clear (R240). -/
theorem State.endCycle_only_points (k : Nat) {u : State} (h : u.runState = .running) :
    u.endCycle k =
      { u with dt := (u.endCycle k).dt, st := (u.endCycle k).st, outputs := (u.endCycle k).outputs,
               dirty := false, runState := (u.endCycle k).runState, stopPending := false } := by
  obtain ⟨-, -, -, hdirty, -, hstop⟩ := State.endCycle_points k h
  have hkept := State.endCycle_fields k u
  generalize u.endCycle k = t at *
  cases t
  simp_all

/-- A step whose coming turn resets nothing, of a halted engine, writes the key latch, the stop latch, the outputs
and the host's fields only. -/
theorem step_of_halted_only_ports {s : State} (hhalt : s.runState ≠ .running) (h : NoResetComing s) :
    ∃ t, step s = .next t ∧
      t = { s with keys := t.keys, stopPending := t.stopPending, outputs := t.outputs, script := t.script,
                   turns := t.turns } := by
  have hports := State.openTurn_only_ports h
  have hrun : s.openTurn.runState = s.runState := by rw [hports]
  exact ⟨s.openTurn, step_of_halted (by rw [hrun]; exact hhalt), hports⟩

end Sys2Proof.Machine

namespace Sys2Proof.Proofs

open Sys2Proof.Machine Sys2Proof.Claims

/-- Settles O6: the word at PC is the one that decodes to i, so the instruction step is exec of i. -/
theorem stepRunsTheDecodedInstruction : Obligations.StepRunsTheDecodedInstruction := by
  intro s i hrun hpc hdec
  have hword : decodeWord (s.openTurn.mem.word s.openTurn.pc.toNat) = some i := by
    rw [decode_pair] at hdec
    rw [Memory.word]
    cases hw : decodeWord (wordOfBytes (s.openTurn.mem.read s.openTurn.pc.toNat)
        (s.openTurn.mem.read (s.openTurn.pc.toNat + 1))) with
    | none => simp [hw] at hdec
    | some j => simpa [hw] using hdec
  obtain ⟨t, ht⟩ := exec_next i s.openTurn
  rw [ht]
  exact step_of_running hrun ((runInstruction_of_decodeWord hpc hword).trans ht)

/-- Settles O7: past the bound the fetch gives nothing and its fault is taken; below it the word is made of
the two bytes. -/
theorem fetchReadsABigEndianWordOrFaults : Obligations.FetchReadsABigEndianWordOrFaults := by
  intro s
  constructor
  · intro hpc
    exact ⟨by rw [State.fetch_eq, if_neg (by omega)], _, runInstruction_of_fetchFault hpc,
      s.faultTaken_raiseFault _⟩
  · intro hpc
    exact ⟨_, _, by rw [State.fetch_eq, if_pos hpc], rfl, rfl, wordOfBytes_toNat _ _⟩

/-- Settles O9: the fetch fault, the unmatched word's advance, and the three answers of an instruction. -/
theorem eachInstructionStepHasOneOfThreeOutcomes : Obligations.EachInstructionStepHasOneOfThreeOutcomes := by
  intro s
  obtain ⟨t, ht⟩ := runInstruction_next s
  refine ⟨t, ht, ?_⟩
  obtain ⟨-, rfl⟩ | ⟨-, i, hi, he⟩ | ⟨-, rfl⟩ := runInstruction_inv ht
  · exact .inr (.inr ⟨_, rfl⟩)
  · obtain ⟨f, -, rfl⟩ | ⟨-, ⟨⟨x, rfl⟩, hkeys⟩, rfl⟩ | ⟨-, rfl⟩ := exec_inv he
    · exact .inr (.inr ⟨f, rfl⟩)
    · exact .inr (.inl ⟨rfl, rfl, keys_eq_zero_of_highestKey hkeys, x, hi⟩)
    · exact .inl (by simp)
  · exact .inl (by simp)

/-- Settles O10: the instruction step answers a next state, and so does the cycle around it. -/
theorem everyStepAnswersANextState : Obligations.EveryStepAnswersANextState := step_next

/-- Settles O11: the step is the end of the cycle on the instruction step's answer. -/
theorem cycleTicksThenRedrawsThenStops : Obligations.CycleTicksThenRedrawsThenStops := by
  intro s u hrun hu hurun
  obtain ⟨hdt, hst, hout, hdirty, hstate, hstop⟩ := State.endCycle_points s.turnTicks hurun
  refine ⟨_, step_of_running hrun hu, hdt, hst, hout, hdirty, hstate, hstop, State.endCycle_only_points _ hurun⟩

/-- Settles O12: a faulting step ends the cycle; a faulted engine takes the host's turn; a reset runs it. -/
theorem faultIsPreciseAndHaltsUntilReset : Obligations.FaultIsPreciseAndHaltsUntilReset := by
  refine ⟨fun s u f hrun hu huf => ?_, fun s f hf hno => ?_, fun s hreset => ?_⟩
  · have hstep := step_of_running hrun hu
    rw [State.endCycle_of_halted _ (by simp [huf])] at hstep
    refine ⟨hstep, ?_⟩
    obtain ⟨g, rfl⟩ | hkeep := runInstruction_fault_or_keeps_runState hu
    · have hg : g = f := by simpa using huf
      exact hg ▸ s.openTurn.faultTaken_raiseFault g
    · simp [hkeep, hrun] at huf
  · obtain ⟨t, ht, hports⟩ := step_of_halted_only_ports (by simp [hf]) hno
    exact ⟨t, ht, (congrArg State.runState hports).trans hf, hports⟩
  · rw [State.openTurn_of_reset hreset]; rfl

/-- Settles O13: by the three answers of an instruction, the first of which is the fault of the table. -/
theorem faultsAreThoseOfTheTable : Obligations.FaultsAreThoseOfTheTable := by
  refine ⟨fun i s => ?_, fun s hpc => ⟨_, runInstruction_of_fetchFault hpc, s.faultTaken_raiseFault _⟩,
    fun _ _ _ _ => ⟨rfl, rfl, rfl, rfl, rfl, rfl⟩⟩
  obtain ⟨f, hf, he⟩ | ⟨hf, -, he⟩ | ⟨hf, he⟩ := exec_cases i s
  · exact ⟨_, he, by rw [hf]; exact s.faultTaken_raiseFault f⟩
  · exact ⟨_, he, by rw [hf]; rfl⟩
  · exact ⟨_, he, by rw [hf]; simp⟩

/-- Settles O14: the step of a halted engine is the host's turn. -/
theorem haltedEngineExecutesNothing : Obligations.HaltedEngineExecutesNothing := by
  refine ⟨fun s hhalt hquiet => ?_, fun s hhalt hno => ?_⟩
  · have hopen := State.openTurn_quiet hquiet
    rw [step_of_halted (by simpa [hopen] using hhalt), hopen]
  · obtain ⟨t, ht, hports⟩ := step_of_halted_only_ports hhalt hno
    exact ⟨t, ht, by rw [hports], by rw [hports], by rw [hports], by rw [hports]⟩

/-- Settles O15, counter by counter. -/
theorem tickDecrementsBothCounters : Obligations.TickDecrementsBothCounters := by
  refine ⟨fun s => ?_, fun s hhalt => ⟨_, step_of_halted hhalt, rfl, rfl, rfl⟩⟩
  obtain ⟨hdt, hst, hout⟩ := s.tick_counters
  exact ⟨hdt, hst, hout, s.tick_only_timers⟩

/-- Settles O16: the tick point is k ticks, and neither an instruction nor a reset writes the outputs. -/
theorem exactlyOneBeepPerExpiry : Obligations.ExactlyOneBeepPerExpiry := by
  refine ⟨fun s k => ?_, fun i s => ?_, fun s => rfl⟩
  · obtain ⟨hdt, hst, hout⟩ := s.tickMany_counters k
    rw [State.tickPoint_eq]
    exact ⟨hst, hdt, hout⟩
  · obtain ⟨t, ht⟩ := exec_next i s
    obtain ⟨-, -, hout, -⟩ := exec_frame ht
    exact ⟨t, ht, hout⟩

end Sys2Proof.Proofs
end

section
/-! The host's ports: key events, stop requests, reset and load. -/

namespace Sys2Proof.Machine

/-- A key event writes its own bit of the latch (R233). -/
theorem getLsbD_setKeyBit (keys : BitVec 16) (index : Nibble) (pressed : Bool) {k : Nat} (hk : k < 16) :
    (setKeyBit keys index pressed).getLsbD k = if k = index.toNat then pressed else keys.getLsbD k := by
  have hindex := index.isLt
  cases pressed <;> by_cases h : k = index.toNat <;> simp [setKeyBit, h, BitVec.getLsbD_twoPow] <;> omega

/-- The memory a reset leaves: FONT below 80, zero above (R260). -/
theorem State.read_resetCore (s : State) (a : Nat) :
    s.resetCore.mem.read a = if a < 80 then s.font.toList.getD a 0 else 0 := by
  have hread := Memory.read_writeBytes (m := []) rfl (a := 0) (bs := s.font.toList) (by simp) a
  by_cases h : a < 80
  · simpa [State.resetCore, h] using hread
  · have hbg : background a = 0 := background_above_font (by omega)
    simpa [State.resetCore, h, Memory.read, hbg] using hread

/-- A load that is rejected only tells the host so (R262). -/
theorem State.loadImage_of_rejected {s : State} {bytes : List Byte} (h : imageWf bytes = false) :
    s.loadImage bytes = { s with outputs := .loadResult false :: s.outputs } := by
  simp [State.loadImage, h, State.emit]

/-- A load that is accepted resets the core, copies the image to 0x200 and tells the host so (R262). -/
theorem State.loadImage_of_accepted {s : State} {bytes : List Byte} (h : imageWf bytes = true) :
    s.loadImage bytes =
      { s.resetCore with mem := s.resetCore.mem.writeBytes 0x200 bytes,
                         outputs := .loadResult true :: s.outputs } := by
  simp [State.loadImage, h, State.emit]
  rfl

theorem imageWf_iff (bytes : List Byte) : imageWf bytes = true ↔ 0 < bytes.length ∧ bytes.length ≤ 3584 := by
  simp [imageWf, List.length_pos_iff]

/-- The memory an accepted load leaves: the image from 0x200 on, reset's memory elsewhere (R262). -/
theorem State.read_loaded (s : State) {bytes : List Byte} (h : bytes.length ≤ 3584) (a : Nat) :
    (s.resetCore.mem.writeBytes 0x200 bytes).read a =
      if 0x200 ≤ a ∧ a < 0x200 + bytes.length then bytes.getD (a - 0x200) 0 else s.resetCore.mem.read a :=
  Memory.read_writeBytes s.resetCore_mem_wf (by omega) a

end Sys2Proof.Machine

namespace Sys2Proof.Proofs

open Sys2Proof.Machine Sys2Proof.Claims

/-- Settles O18: the key event sets or clears its own bit. -/
theorem keyEventWritesOneBit : Obligations.KeyEventWritesOneBit :=
  fun s index pressed => ⟨fun _ hk => getLsbD_setKeyBit s.keys index pressed hk, rfl⟩

/-- Settles O19: the latch, the end of the cycle, and the host's turn of a stopped engine. -/
theorem stopRequestIsHonouredAtTheEndOfTheCycle : Obligations.StopRequestIsHonouredAtTheEndOfTheCycle := by
  refine ⟨fun s => rfl, fun s u hrun hu hurun hpend => ?_, fun s hstopped hno => ?_,
    fun s index pressed hstopped hkey => ?_, fun s hreset => ?_⟩
  · obtain ⟨-, -, -, -, hstate, hstop⟩ := State.endCycle_points s.turnTicks hurun
    exact ⟨_, step_of_running hrun hu, by rw [hstate, if_pos hpend], hstop⟩
  · exact step_of_halted_only_ports (by simp [hstopped]) hno
  · have hopen : s.openTurn =
        { s with script := s.script.tail, turns := s.turns + 1 }.keyEvent index pressed := by
      simp [State.openTurn, hkey, State.hostEvents, State.hostEvent]
    have hkeys : s.openTurn.keys = setKeyBit s.keys index pressed := by simp [hopen]
    refine ⟨s.openTurn, step_of_halted (by simp [hopen, hstopped]), ?_⟩
    rw [hkeys, getLsbD_setKeyBit _ _ _ index.isLt, if_pos rfl]
  · rw [State.openTurn_of_reset hreset]; rfl

/-- Settles O20, row by row of R38. -/
theorem resetEstablishesTheTable : Obligations.ResetEstablishesTheTable := by
  intro s
  refine ⟨s.resetCore, rfl, fun a h => ?_, fun a h _ => ?_, fun r => ?_, rfl, rfl, rfl, fun j h => ?_,
    rfl, rfl, fun c => dispCell_clear c, fun k => ?_, rfl, rfl, rfl, rfl, rfl⟩
  · simp [State.read_resetCore, h]
  · simp [State.read_resetCore, Nat.not_lt.mpr h]
  · simp [State.resetCore, State.readV]
  · simp [State.resetCore]
  · simp [State.resetCore]

/-- Settles O21, by the check of the image's length. -/
theorem loadRejectsOrResetsAndCopies : Obligations.LoadRejectsOrResetsAndCopies := by
  intro s bytes
  refine ⟨fun hlen => ?_, fun hpos hlen => ?_⟩
  · have hno : imageWf bytes = false := by
      rw [← Bool.not_eq_true, imageWf_iff]
      omega
    exact State.loadImage_of_rejected hno
  · refine ⟨_, State.loadImage_of_accepted ((imageWf_iff bytes).mpr ⟨hpos, hlen⟩), rfl,
      fun k hk => ?_, fun a ha => ?_⟩
    · rw [State.read_loaded s hlen, if_pos (by omega)]
      simp [hk]
    · rw [State.read_loaded s hlen, if_neg (by omega)]
      rfl

end Sys2Proof.Proofs
end

section
/-! The ALU: the logic operations, the five flag writers, and the random byte. -/

namespace Sys2Proof.Machine

/-- An instruction's own word is its word. -/
theorem wordIs_encode (i : Instr) : WordIs i (encode i) := ⟨rfl, decodeWord_encode i⟩

/-- Writing Vx and then VF and advancing writes Vx, VF, PC and the outcome port only. -/
theorem State.onlyRegs_writeResultFlag_advance (s : State) (x : Nibble) (result flag : Byte) :
    OnlyRegs s (s.writeResultFlag x result flag).advance [x, vf] := by
  refine ⟨rfl, fun r hr => ?_, fun _ => rfl⟩
  have hne : r ≠ x ∧ r ≠ vf := by simpa using hr
  simp [State.readV_writeResultFlag, hne]

/-- Vx keeps the result where it is not VF (R22). -/
theorem State.readV_result (s : State) {x : Nibble} (hx : x ≠ vf) (result flag : Byte) :
    (s.writeResultFlag x result flag).advance.readV x = result := by
  simp [State.readV_writeResultFlag, hx]

/-- VF keeps the flag, whatever x is (R130). -/
theorem State.readV_flag (s : State) (x : Nibble) (result flag : Byte) :
    (s.writeResultFlag x result flag).advance.readV vf = flag := by
  simp [State.readV_writeResultFlag]

theorem flagByte_decide (P : Prop) [Decidable P] : flagByte (decide P) = if P then 1 else 0 := by
  by_cases h : P <;> simp [flagByte, h]

/-- A difference of bytes as an integer modulo 256 (R138). -/
theorem toNat_sub_byte (a b : Byte) : ((a - b).toNat : Int) = (a.toNat - b.toNat : Int) % 256 := by
  have ha := a.isLt
  have hb := b.isLt
  rw [BitVec.toNat_sub]
  omega

/-- The bit a right shift moves out, as a number (R139). -/
theorem shiftedOutLow_toNat (a : Byte) : (shiftedOutLow a).toNat = a.toNat % 2 := by
  have hbit : a.getLsbD 0 = decide (a.toNat % 2 = 1) := by
    simp [BitVec.getLsbD, Nat.testBit_zero]
  rw [shiftedOutLow, hbit, flagByte_decide]
  split <;> simp <;> omega

/-- The bit a left shift moves out, as a number (R141). -/
theorem shiftedOutHigh_toNat (a : Byte) : (shiftedOutHigh a).toNat = a.toNat / 128 := by
  have ha := a.isLt
  have hbit : a.getLsbD 7 = decide (a.toNat / 128 % 2 = 1) := by
    simp [BitVec.getLsbD, Nat.testBit_eq_decide_div_mod_eq]
  rw [shiftedOutHigh, hbit, flagByte_decide]
  split <;> simp <;> omega

theorem toNat_shiftRight_one (a : Byte) : (a >>> 1).toNat = a.toNat / 2 := by
  simp [Nat.shiftRight_eq_div_pow]

theorem toNat_shiftLeft_one (a : Byte) : (a <<< 1).toNat = a.toNat * 2 % 256 := by
  simp [Nat.shiftLeft_eq]

end Sys2Proof.Machine

namespace Sys2Proof.Proofs

open Sys2Proof.Machine

/-- Settles O23: each is one write of Vx and an advance, its value bit by bit the library's. -/
theorem logicOperationsWriteOnlyVx : Obligations.LogicOperationsWriteOnlyVx := by
  intro s x y
  refine ⟨⟨wordIs_encode (.orReg x y), _, rfl, fun k _ => ?_, s.onlyRegs_writeV_advance x _,
      State.advancedBy_advance rfl⟩,
    ⟨wordIs_encode (.andReg x y), _, rfl, fun k _ => ?_, s.onlyRegs_writeV_advance x _,
      State.advancedBy_advance rfl⟩,
    ⟨wordIs_encode (.xorReg x y), _, rfl, fun k _ => ?_, s.onlyRegs_writeV_advance x _,
      State.advancedBy_advance rfl⟩⟩
  · rw [s.readV_writeV_advance, BitVec.getLsbD_or]
  · rw [s.readV_writeV_advance, BitVec.getLsbD_and]
  · rw [s.readV_writeV_advance, BitVec.getLsbD_xor]

/-- Settles O24: the flag is written after the sum. -/
theorem addWritesSumAndCarry : Obligations.AddWritesSumAndCarry := by
  intro s x y
  refine ⟨wordIs_encode (.addReg x y), _, rfl, fun hx => ?_, ?_,
    s.onlyRegs_writeResultFlag_advance x _ _, State.advancedBy_advance rfl⟩
  · rw [s.readV_result hx, BitVec.toNat_add]
  · rw [s.readV_flag, carryFlag, flagByte_decide]

/-- Settles O25: the two differences, each with its own minuend. -/
theorem subtractionsWriteDifferenceAndNoBorrow : Obligations.SubtractionsWriteDifferenceAndNoBorrow := by
  intro s x y
  refine ⟨⟨wordIs_encode (.subReg x y), _, rfl, fun hx => ?_, ?_,
      s.onlyRegs_writeResultFlag_advance x _ _, State.advancedBy_advance rfl⟩,
    ⟨wordIs_encode (.subnReg x y), _, rfl, fun hx => ?_, ?_,
      s.onlyRegs_writeResultFlag_advance x _ _, State.advancedBy_advance rfl⟩⟩
  · rw [s.readV_result hx, toNat_sub_byte]
  · rw [s.readV_flag, noBorrowFlag, flagByte_decide]
  · rw [s.readV_result hx, toNat_sub_byte]
  · rw [s.readV_flag, noBorrowFlag, flagByte_decide]

/-- Settles O26: neither shift reads Vy. -/
theorem shiftsMoveTheLostBitToVF : Obligations.ShiftsMoveTheLostBitToVF := by
  intro s x y
  refine ⟨⟨wordIs_encode (.shr x y), _, rfl, fun hx => ?_, ?_,
      s.onlyRegs_writeResultFlag_advance x _ _, State.advancedBy_advance rfl⟩,
    ⟨wordIs_encode (.shl x y), _, rfl, fun hx => ?_, ?_,
      s.onlyRegs_writeResultFlag_advance x _ _, State.advancedBy_advance rfl⟩⟩
  · rw [s.readV_result hx, toNat_shiftRight_one]
  · rw [s.readV_flag, shiftedOutLow_toNat]
  · rw [s.readV_result hx, toNat_shiftLeft_one]
  · rw [s.readV_flag, shiftedOutHigh_toNat]

/-- Settles O27: a supplied byte is the one drawn. -/
theorem randomByteIsMaskedAndAnyDrawCanCome : Obligations.RandomByteIsMaskedAndAnyDrawCanCome := by
  intro s x kk
  refine ⟨wordIs_encode (.rnd x kk),
    ⟨_, rfl, s.afterDraw.readV_writeV_advance x _, ?_, fun _ => rfl, State.advancedBy_advance rfl, rfl⟩,
    fun b => ⟨_, rfl, State.readV_writeV_advance _ x _, rfl⟩⟩
  obtain ⟨-, hregs, -⟩ := s.afterDraw.onlyRegs_writeV_advance x (s.randomByte &&& kk)
  exact hregs

end Sys2Proof.Proofs
end

section
/-! Control, address register, and the display, key and timer instructions without a fault. -/

namespace Sys2Proof.Machine

@[simp] theorem zextByte_toNat (b : Byte) : (zextByte b).toNat = b.toNat :=
  BitVec.toNat_setWidth_of_le (by decide)

/-- Bnnn's sum does not wrap: it is at most 0x10FE (R110). -/
theorem jpV0_target_toNat (nnn : Addr12) (b : Byte) :
    (addrWord nnn + zextByte b).toNat = nnn.toNat + b.toNat := by
  have hnnn := nnn.isLt
  have hb := b.isLt
  rw [BitVec.toNat_add, addrWord_toNat, zextByte_toNat]
  omega

/-- 5xyn and 9xyn with n not 0 are unmatched (R79). -/
theorem decodeWord_regSkip_unmatched (x y : Nibble) {n : Nibble} (hn : n ≠ 0x0#4) :
    decodeWord (fmtXYN 0x5#4 x y n) = none ∧ decodeWord (fmtXYN 0x9#4 x y n) = none := by
  simp [decodeWord, hn]

/-- The entry a pop reads (R101). -/
theorem State.top_eq (s : State) (h : 0 < s.sp.val) : s.top = s.stack[s.sp.val - 1]'(by omega) := by
  have hlt : s.sp.val - 1 < 64 := by omega
  simp [State.top, List.getD_eq_getElem?_getD, hlt]

/-- The highest key found is the highest one pressed (R203). -/
theorem highestKey_eq_some {keys : BitVec 16} {k : Nat} (hk : k < 16) (hdown : keys.getLsbD k = true)
    (habove : ∀ j, k < j → j < 16 → keys.getLsbD j = false) : highestKey keys = some (BitVec.ofNat 8 k) := by
  cases hb : highestKey keys with
  | none => simp [(highestBelow_none keys 16).mp hb k hk] at hdown
  | some b =>
    obtain ⟨hlt, hbdown, hbabove⟩ := highestBelow_some keys (Nat.le_refl 16) hb
    have hkb : b.toNat = k := by
      by_contra hne
      obtain h | h := Nat.lt_or_gt_of_ne hne
      · simp [hbabove k h hk] at hdown
      · simp [habove _ h hlt] at hbdown
    rw [← hkb, BitVec.ofNat_toNat, BitVec.setWidth_eq]

end Sys2Proof.Machine

namespace Sys2Proof.Proofs

open Sys2Proof.Machine

/-- Settles O28: both jumps are the shared jump. -/
theorem jumpsGoToTheirTarget : Obligations.JumpsGoToTheirTarget := by
  intro s nnn
  exact ⟨⟨wordIs_encode (.jp nnn), _, rfl, addrWord_toNat nnn, rfl, s.onlyPc_jumpTo _⟩,
    ⟨wordIs_encode (.jpV0 nnn), _, rfl, jpV0_target_toNat nnn _, rfl, s.onlyPc_jumpTo _⟩⟩

/-- Settles O29, by the two answers of CALL. -/
theorem callPushesOrOverflows : Obligations.CallPushesOrOverflows := by
  intro s nnn
  refine ⟨wordIs_encode (.call nnn),
    fun hfull => ⟨_, exec_of_fault (if_pos hfull), s.faultTaken_raiseFault _⟩, fun hroom => ?_⟩
  · obtain ⟨hfull, -⟩ | ⟨hroom', he⟩ := execCall_cases nnn s
    · omega
    · refine ⟨_, he, ?_, fun j hj hne => ?_, rfl, addrWord_toNat nnn, rfl, rfl, fun _ => rfl⟩
      · simp [BitVec.toNat_add]
      · simp [hne.symm]

/-- Settles O30: the pop reads the entry below SP; the invariant bounds it; past 0xFFE the next fetch faults. -/
theorem returnPopsOrUnderflows : Obligations.ReturnPopsOrUnderflows := by
  intro s
  refine ⟨wordIs_encode .ret,
    fun hempty => ⟨_, exec_of_fault (if_pos hempty), s.faultTaken_raiseFault _⟩, fun hopen => ?_⟩
  · obtain ⟨hempty, -⟩ | ⟨-, he⟩ := execRet_cases s
    · omega
    · refine ⟨_, he, rfl, s.top_eq hopen, rfl, fun hinv => ?_, fun hend => ?_, rfl, fun _ => rfl⟩
      · show s.top.toNat ≤ 0x1000
        rw [s.top_eq hopen]
        exact hinv.stackBound _ (Vector.mem_toList_iff.mpr (Vector.getElem_mem _))
      · have hpc : (s.pop.jumpTo s.top).pc = 0x1000#16 := BitVec.eq_of_toNat_eq hend
        refine ⟨_, runInstruction_of_fetchFault (by omega), ?_⟩
        rw [hpc]
        exact State.faultTaken_raiseFault _ _

/-- Settles O34: both are the shared skip; the rows of the two ask for n = 0. -/
theorem registerSkipsAdvanceByFourOrTwo : Obligations.RegisterSkipsAdvanceByFourOrTwo := by
  intro s x y
  have heq : (s.readV x == s.readV y) = true ↔ (s.readV x).toNat = (s.readV y).toNat := by
    rw [beq_iff_eq, BitVec.toNat_inj]
  have hne : (s.readV x != s.readV y) = true ↔ (s.readV x).toNat ≠ (s.readV y).toNat := by
    rw [bne_iff_ne, Ne, Ne, BitVec.toNat_inj]
  exact ⟨⟨wordIs_encode (.seReg x y), _, rfl, s.onlyPc_skipIf _, s.advancedBy_skipIf heq⟩,
    ⟨wordIs_encode (.sneReg x y), _, rfl, s.onlyPc_skipIf _, s.advancedBy_skipIf hne⟩,
    fun _ hn => decodeWord_regSkip_unmatched x y hn⟩

/-- Settles O36: the sum wraps at 2^16, five times a byte does not. -/
theorem addressAddAndGlyphAddressWriteOnlyI : Obligations.AddressAddAndGlyphAddressWriteOnlyI := by
  intro s x
  have hglyph : (zextByte (s.readV x) * 5#16).toNat = (s.readV x).toNat * 5 := by
    have hx := (s.readV x).isLt
    rw [BitVec.toNat_mul, zextByte_toNat]
    simp
    omega
  refine ⟨⟨wordIs_encode (.addI x), _, rfl, ?_, s.onlyI_setI_advance _, State.advancedBy_advance rfl⟩,
    ⟨wordIs_encode (.ldF x), _, rfl, hglyph, s.onlyI_setI_advance _, State.advancedBy_advance rfl⟩⟩
  simp [BitVec.toNat_add]

/-- Settles O41. The buffer of zeros has every cell off. -/
theorem clearTurnsEveryCellOff : Obligations.ClearTurnsEveryCellOff := by
  intro s
  exact ⟨wordIs_encode .cls, _, rfl, fun c _ => dispCell_clear c, rfl, rfl, fun _ => rfl,
    State.advancedBy_advance rfl⟩

/-- Settles O43: each key skip is the shared skip on the latch's bit at Vx. -/
theorem keySkipsTestTheLatchOrFault : Obligations.KeySkipsTestTheLatchOrFault := by
  intro s x
  refine ⟨wordIs_encode (.skp x), wordIs_encode (.sknp x),
    fun hout => ⟨⟨_, exec_of_fault (if_pos hout), s.faultTaken_raiseFault _⟩,
      ⟨_, exec_of_fault (if_pos hout), s.faultTaken_raiseFault _⟩⟩, fun hin => ⟨?_, ?_⟩⟩
  · obtain ⟨hout, -⟩ | ⟨-, he⟩ := execSkp_cases x s
    · omega
    · exact ⟨_, he, s.onlyPc_skipIf _, s.advancedBy_skipIf Iff.rfl⟩
  · obtain ⟨hout, -⟩ | ⟨-, he⟩ := execSknp_cases x s
    · omega
    · exact ⟨_, he, s.onlyPc_skipIf _, s.advancedBy_skipIf (by simp [State.keyDown])⟩

/-- Settles O44: the search for the highest key finds none, or the highest pressed. -/
theorem waitForKeyTakesTheHighestPressedKey : Obligations.WaitForKeyTakesTheHighestPressedKey := by
  intro s x
  refine ⟨wordIs_encode (.ldVxK x), fun hno => ?_, fun k hk hdown habove => ?_⟩
  · obtain ⟨-, he⟩ | ⟨k, hk, -⟩ := execLdVxK_cases x s
    · exact ⟨_, he, rfl⟩
    · rw [highestKey, (highestBelow_none s.keys 16).mpr hno] at hk
      cases hk
  · have hkey := highestKey_eq_some hk hdown habove
    obtain ⟨hnone, -⟩ | ⟨b, hb, he⟩ := execLdVxK_cases x s
    · simp [hkey] at hnone
    · refine ⟨_, he, ?_, s.onlyRegs_writeV_advance x b, State.advancedBy_advance rfl⟩
      rw [s.readV_writeV_advance, ← Option.some.inj (hkey.symm.trans hb), BitVec.toNat_ofNat]
      omega

/-- Settles O46: the move is one write of ST and an advance. -/
theorem soundTimerMoveEmitsNoBeep : Obligations.SoundTimerMoveEmitsNoBeep := by
  intro s x
  exact ⟨wordIs_encode (.ldSTVx x), _, rfl, rfl, rfl, rfl, fun _ => rfl, State.advancedBy_advance rfl⟩

end Sys2Proof.Proofs
end

section
/-! The stores and the block load: what they leave in memory and the registers, and that a later fetch sees it. -/

namespace Sys2Proof.Machine

open Sys2Proof.Claims

/-- A bounds-checked transfer of n + 1 bytes from I moves I past them without wrapping (R165, R166). -/
theorem bumpI_toNat {i : Word} {n : Nat} (h : i.toNat + n ≤ 0xFFF) :
    (i + BitVec.ofNat 16 (n + 1)).toNat = i.toNat + n + 1 := by
  rw [BitVec.toNat_add, BitVec.toNat_ofNat]
  omega

theorem byteAfterStore_inside (s : State) {n k : Nat} (stored : Nat → Byte) (hk : k < n) :
    byteAfterStore s n stored (s.effAddr k) = stored k := by
  have hrange : s.effAddr 0 ≤ s.effAddr k ∧ s.effAddr k < s.effAddr n := by
    simp only [State.effAddr]
    omega
  rw [byteAfterStore, if_pos hrange]
  simp [State.effAddr]

theorem byteAfterStore_outside (s : State) {n b : Nat} (stored : Nat → Byte)
    (hb : b < s.effAddr 0 ∨ s.effAddr 0 + n ≤ b) : byteAfterStore s n stored b = s.mem.read b := by
  rw [byteAfterStore, if_neg]
  simp only [State.effAddr] at hb ⊢
  omega

/-- The memory after bytes are stored from I upward, in bounds (R58). -/
theorem State.read_storeAtI {s : State} (hwf : s.mem.wf = true) {bytes : List Byte} {stored : Nat → Byte}
    (hin : s.i.toNat + bytes.length ≤ 4096) (hstored : ∀ k < bytes.length, bytes.getD k 0 = stored k)
    (a : Nat) : (s.storeAtI bytes).mem.read a = byteAfterStore s bytes.length stored a := by
  obtain ⟨hmem, -⟩ := s.storeAtI_fields bytes
  rw [hmem, Memory.read_writeBytes hwf hin]
  by_cases h : s.i.toNat ≤ a ∧ a < s.i.toNat + bytes.length
  · obtain ⟨k, rfl⟩ : ∃ k, a = s.effAddr k := ⟨a - s.i.toNat, by simp only [State.effAddr]; omega⟩
    have hk : k < bytes.length := by simp only [State.effAddr] at h; omega
    rw [if_pos h, byteAfterStore_inside s stored hk, ← hstored k hk]
    simp [State.effAddr]
  · rw [if_neg h, byteAfterStore_outside]
    simp only [State.effAddr]
    omega

/-- Byte k of the decimal digits of b, hundreds first (R164). -/
def decimalDigit (b : Byte) (k : Nat) : Byte := BitVec.ofNat 8 (b.toNat / 10 ^ (2 - k) % 10)

theorem decimalDigits_getD (b : Byte) {k : Nat} (hk : k < 3) :
    (decimalDigits b).getD k 0 = decimalDigit b k := by
  have hb := b.isLt
  have hundreds : b.toNat / 100 % 10 = b.toNat / 100 := by omega
  interval_cases k <;> simp [decimalDigits, decimalDigit, hundreds]

theorem decimalDigit_toNat (b : Byte) (k : Nat) :
    (decimalDigit b k).toNat = b.toNat / 10 ^ (2 - k) % 10 := by
  rw [decimalDigit, BitVec.toNat_ofNat]
  omega

/-- The memory after Fx33, in bounds: the three digits (R164). -/
theorem State.read_after_ldB {s : State} (hwf : s.mem.wf = true) (b : Byte) (hin : s.i.toNat + 2 ≤ 0xFFF)
    (a : Nat) :
    (s.storeAtI (decimalDigits b)).advance.mem.read a = byteAfterStore s 3 (decimalDigit b) a :=
  State.read_storeAtI hwf (bytes := decimalDigits b) (by simp [decimalDigits]; omega)
    (fun _ hk => decimalDigits_getD b hk) a

/-- The memory after Fx55, in bounds: each register's own byte (R165). -/
theorem State.read_after_storeRegs {s : State} (hwf : s.mem.wf = true) (x : Nibble)
    (hin : s.i.toNat + x.toNat ≤ 0xFFF) (a : Nat) :
    ((s.storeAtI (s.firstRegs (x.toNat + 1))).bumpI (x.toNat + 1)).advance.mem.read a =
      byteAfterStore s (x.toNat + 1) (fun k => s.readV (BitVec.ofNat 4 k)) a := by
  have hx := x.isLt
  have hlen := s.firstRegs_length (x.toNat + 1) (by omega)
  have hread := State.read_storeAtI (stored := fun k => s.readV (BitVec.ofNat 4 k)) hwf
    (bytes := s.firstRegs (x.toNat + 1)) (by omega) (fun k hk => ?_) a
  · rwa [hlen] at hread
  · rw [List.getD_eq_getElem?_getD, s.firstRegs_get (x.toNat + 1) k (by omega) (by omega),
      Option.getD_some]

/-- A fetched word that is an instruction's own is executed as fetched, whatever the instruction then stores. -/
theorem runInstruction_of_fetch {s : State} {i : Instr} (h : s.fetch = some (bytesOfWord (encode i))) :
    runInstruction s = exec i s := by
  have hdec := decode_bytesOfWord (decodeWord_encode i) []
  rw [List.append_nil] at hdec
  simp [runInstruction, h, hdec]

theorem fetchesSeeStore_of_read {s t : State} {n : Nat} {stored : Nat → Byte}
    (h : ∀ a, t.mem.read a = byteAfterStore s n stored a) : FetchesSeeStore s t n stored := by
  intro u hmem hpc
  rw [State.fetch_eq, if_pos hpc, hmem, h, h]

/-- A block load and the move of I write V registers, I, PC and the outcome port only. -/
theorem State.loadFirst_bumpI_advance_only (s : State) (n m : Nat) :
    ((s.loadFirst n).bumpI m).advance =
      { s with v := ((s.loadFirst n).bumpI m).advance.v, i := ((s.loadFirst n).bumpI m).advance.i,
               pc := ((s.loadFirst n).bumpI m).advance.pc,
               outcome := ((s.loadFirst n).bumpI m).advance.outcome } := by
  rw [s.loadFirst_only_regs n]
  rfl

end Sys2Proof.Machine

namespace Sys2Proof.Proofs

open Sys2Proof.Machine Sys2Proof.Claims

/-- Settles O37: the three stored bytes are the decimal digits. -/
theorem bcdStoresThreeDigitsOrFaults : Obligations.BcdStoresThreeDigitsOrFaults := by
  intro s x hwf
  refine ⟨wordIs_encode (.ldB x),
    fun hout => ⟨_, exec_of_fault (if_pos hout), s.faultTaken_raiseFault _⟩, fun hin => ?_⟩
  · obtain ⟨hout, -⟩ | ⟨-, he⟩ := execLdB_cases x s
    · exact absurd hin (Nat.not_le.mpr hout)
    · have hread := State.read_after_ldB hwf (s.readV x) hin
      have hdigit (k : Nat) (hk : k < 3) :
          ((s.storeAtI (decimalDigits (s.readV x))).advance.mem.read (s.effAddr k)).toNat =
            (s.readV x).toNat / 10 ^ (2 - k) % 10 := by
        rw [hread, byteAfterStore_inside s _ hk, decimalDigit_toNat]
      have hx := (s.readV x).isLt
      have hundreds : (s.readV x).toNat / 100 % 10 = (s.readV x).toNat / 100 := by omega
      refine ⟨_, he, (hdigit 0 (by omega)).trans hundreds, ?_, ?_, fun b hb => ?_, rfl,
        State.advancedBy_advance rfl⟩
      · simpa using hdigit 1 (by omega)
      · simpa using hdigit 2 (by omega)
      · rw [hread, byteAfterStore_outside s _ hb]

/-- Settles O38: byte r of the store is register r. -/
theorem blockStoreWritesEachRegisterOrFaults : Obligations.BlockStoreWritesEachRegisterOrFaults := by
  intro s x hwf
  refine ⟨wordIs_encode (.storeRegs x),
    fun hout => ⟨_, exec_of_fault (if_pos hout), s.faultTaken_raiseFault _⟩, fun hin => ?_⟩
  · obtain ⟨hout, -⟩ | ⟨-, he⟩ := execStoreRegs_cases x s
    · exact absurd hin (Nat.not_le.mpr hout)
    · have hread := State.read_after_storeRegs hwf x hin
      refine ⟨_, he, fun r hr => ?_, fun b hb => ?_, bumpI_toNat hin, rfl, State.advancedBy_advance rfl⟩
      · rw [hread, byteAfterStore_inside s _ (Nat.lt_succ_of_le hr), BitVec.ofNat_toNat, BitVec.setWidth_eq]
      · rw [hread, byteAfterStore_outside s _ hb]

/-- Settles O39: the loop of the block load, register by register. -/
theorem blockLoadReadsEachRegisterOrFaults : Obligations.BlockLoadReadsEachRegisterOrFaults := by
  intro s x
  refine ⟨wordIs_encode (.loadRegs x),
    fun hout => ⟨_, exec_of_fault (if_pos hout), s.faultTaken_raiseFault _⟩, fun hin => ?_⟩
  · obtain ⟨hout, -⟩ | ⟨-, he⟩ := execLoadRegs_cases x s
    · exact absurd hin (Nat.not_le.mpr hout)
    · have hx := x.isLt
      refine ⟨_, he, fun r => ?_, ?_, s.loadFirst_bumpI_advance_only _ _, fun a => by simp,
        State.advancedBy_advance (by simp)⟩
      · rw [State.readV_advance, State.readV_bumpI, s.readV_loadFirst _ (by omega)]
        exact if_congr Nat.lt_succ_iff rfl rfl
      · simpa using bumpI_toNat hin

/-- Settles O40: the fetch reads memory as the store left it; the store itself was fetched before. -/
theorem storesAreSeenByTheNextFetch : Obligations.StoresAreSeenByTheNextFetch := by
  intro s x hwf
  refine ⟨fun hin => ?_, fun hin => ?_⟩
  · obtain ⟨hout, -⟩ | ⟨-, he⟩ := execStoreRegs_cases x s
    · exact absurd hin (Nat.not_le.mpr hout)
    · exact ⟨_, he, fun hf => (runInstruction_of_fetch (i := .storeRegs x) hf).trans he,
        fetchesSeeStore_of_read (State.read_after_storeRegs hwf x hin)⟩
  · obtain ⟨hout, -⟩ | ⟨-, he⟩ := execLdB_cases x s
    · exact absurd hin (Nat.not_le.mpr hout)
    · exact ⟨_, he, fun hf => (runInstruction_of_fetch (i := .ldB x) hf).trans he,
        fetchesSeeStore_of_read (State.read_after_ldB hwf _ hin)⟩

end Sys2Proof.Proofs
end

section
/-! The draw: the cells its flips reach are distinct, and are those of the sprite's set bits. -/

namespace Sys2Proof.Machine

open Sys2Proof.Claims

theorem mem_rowCells {x0 y : Nat} {sprite : Byte} {c : Nat} :
    c ∈ rowCells x0 y sprite ↔ ∃ col < 8, sprite.getLsbD (7 - col) = true ∧ cellIndex (x0 + col) y = c := by
  simp [rowCells, and_assoc]

theorem mem_spriteCells {s : State} {x0 y0 n c : Nat} :
    c ∈ spriteCells s x0 y0 n ↔ ∃ row < n, c ∈ rowCells x0 (y0 + row) (s.readAtI row) := by
  simp [spriteCells]

/-- The cells of the draw's flips are those a set sprite bit reaches (R182). -/
theorem mem_spriteCells_iff_spriteHits (s : State) (x y n : Nibble) (c : Nat) :
    c ∈ spriteCells s (s.readV x).toNat (s.readV y).toNat n.toNat ↔ SpriteHits s x y n c := by
  simp only [mem_spriteCells, mem_rowCells]
  constructor
  · rintro ⟨row, hrow, col, hcol, hbit, rfl⟩
    exact ⟨row, hrow, col, hcol, hbit, rfl⟩
  · rintro ⟨row, hrow, col, hcol, hbit, rfl⟩
    exact ⟨row, hrow, col, hcol, hbit, rfl⟩

/-- The eight columns of one sprite row are eight cells, though they wrap (R180). -/
theorem rowCells_nodup (x0 y : Nat) (sprite : Byte) : (rowCells x0 y sprite).Nodup := by
  refine List.Nodup.map_on (fun a ha b hb hab => ?_) (List.nodup_range.filter _)
  have ha8 : a < 8 := by simpa using (List.mem_filter.mp ha).1
  have hb8 : b < 8 := by simpa using (List.mem_filter.mp hb).1
  obtain ⟨hcol, -⟩ := (cellIndex_inj _ _ _ _).mp hab
  omega

/-- The rows of a sprite are distinct rows of the display, though they wrap (R180). -/
theorem spriteCells_nodup (s : State) (x0 y0 : Nat) {n : Nat} (hn : n ≤ 32) :
    (spriteCells s x0 y0 n).Nodup := by
  refine List.nodup_flatMap.mpr ⟨fun row _ => rowCells_nodup _ _ _, ?_⟩
  refine List.nodup_range.imp_of_mem fun {a b} ha hb hab => ?_
  rw [List.mem_range] at ha hb
  intro c hca hcb
  obtain ⟨col, -, -, rfl⟩ := mem_rowCells.mp hca
  obtain ⟨col', -, -, hcell⟩ := mem_rowCells.mp hcb
  obtain ⟨-, hrow⟩ := (cellIndex_inj _ _ _ _).mp hcell
  omega

theorem spriteCells_lt {s : State} {x0 y0 n c : Nat} (h : c ∈ spriteCells s x0 y0 n) : c < 2048 := by
  obtain ⟨row, -, hc⟩ := mem_spriteCells.mp h
  obtain ⟨col, -, -, rfl⟩ := mem_rowCells.mp hc
  exact cellIndex_lt _ _

/-- What the draw leaves: the sprite's cells flipped, a collision if one of them was on, a change if there is one
(R182). -/
theorem State.drawn_eq (s : State) (x y n : Nibble) :
    (∀ c, dispCell (s.drawn x y n).disp c = true ↔
      (dispCell s.disp c = true ∧ ¬ SpriteHits s x y n c) ∨
      (dispCell s.disp c = false ∧ SpriteHits s x y n c)) ∧
    ((s.drawn x y n).collision = true ↔ ∃ c, SpriteHits s x y n c ∧ dispCell s.disp c = true) ∧
    ((s.drawn x y n).changed = true ↔ ∃ c, SpriteHits s x y n c) := by
  have hn := n.isLt
  obtain ⟨hcells, hcoll, hchanged⟩ := Canvas.hits
    (spriteCells s (s.readV x).toNat (s.readV y).toNat n.toNat)
    (spriteCells_nodup s _ _ (by omega)) (fun _ => spriteCells_lt) ⟨s.disp, false, false⟩
  rw [← Canvas.draw_eq] at hcells hcoll hchanged
  refine ⟨fun c => ?_, ?_, ?_⟩
  · rw [State.drawn, hcells, ← mem_spriteCells_iff_spriteHits]
    cases dispCell s.disp c <;> simp
  · rw [State.drawn, hcoll]
    simp [mem_spriteCells_iff_spriteHits]
  · rw [State.drawn, hchanged]
    simp [List.eq_nil_iff_forall_not_mem, mem_spriteCells_iff_spriteHits]

end Sys2Proof.Machine

namespace Sys2Proof.Proofs

open Sys2Proof.Machine Sys2Proof.Claims

/-- Settles O42: the fault, or the canvas the draw leaves. -/
theorem drawFlipsTheSpriteCellsAndReportsCollision :
    Obligations.DrawFlipsTheSpriteCellsAndReportsCollision := by
  intro s x y n
  refine ⟨wordIs_encode (.drw x y n), fun ⟨hpos, hout⟩ => ?_, fun hin => ?_⟩
  · simp only [State.effAddr] at hout
    exact ⟨_, exec_of_fault (if_pos ⟨hpos, by omega⟩), s.faultTaken_raiseFault _⟩
  · obtain ⟨hpos, hout, -⟩ | ⟨-, he⟩ := execDrw_cases x y n s
    · simp only [State.effAddr] at hin
      omega
    · obtain ⟨hcells, hcoll, hchanged⟩ := s.drawn_eq x y n
      have hvf : (s.takeCanvas (s.drawn x y n)).advance.readV vf = flagByte (s.drawn x y n).collision :=
        State.readV_writeV_same _ vf _
      refine ⟨_, he, fun c _ => hcells c, ?_, by simp [hchanged], fun r hr => ?_, fun _ => rfl,
        State.advancedBy_advance rfl, rfl⟩
      · rw [hvf]
        by_cases hc : (s.drawn x y n).collision = true
        · exact .inl ⟨by rw [hc]; rfl, hcoll.mp hc⟩
        · refine .inr ⟨by rw [Bool.eq_false_iff.mpr hc]; rfl, fun c hhit => ?_⟩
          exact Bool.eq_false_iff.mpr fun hon => hc (hcoll.mpr ⟨c, hhit, hon⟩)
      · have hne : r ≠ vf := by simpa using hr
        rw [State.readV_advance, State.takeCanvas, State.readV_writeV, if_neg hne]
        rfl

end Sys2Proof.Proofs
end

section
/-! Rules over the whole machine: PC, VF, the stack, memory and the key latch under any instruction; what no
instruction reads. -/

namespace Sys2Proof

open Sys2Proof.Machine Sys2Proof.Claims

/-- A skip's target, with the condition outside the sum (R105). -/
theorem skip_target (pc : Word) {c : Bool} {P : Prop} [Decidable P] (hc : c = true ↔ P) :
    (if c then pc + 4#16 else pc + 2#16) = pc + (if P then 4#16 else 2#16) := by
  by_cases hP : P
  · simp [hc.mpr hP, hP]
  · simp [Bool.eq_false_iff.mpr (mt hc.mp hP), hP]

/-- An instruction without fault goes where the rule for PC says (R75). -/
theorem pcMoves_of_target {i : Instr} {s t : State} (hno : faultOf i s = none) (ht : t.pc = i.target s) :
    PcMoves i s t := by
  cases i with
  | jp nnn | call nnn => exact (congrArg BitVec.toNat ht).trans (addrWord_toNat nnn)
  | jpV0 nnn => exact (congrArg BitVec.toNat ht).trans (jpV0_target_toNat nnn _)
  | ret =>
    have hopen : 0 < s.sp.val := by
      by_contra hempty
      have hzero : s.sp.val = 0 := by omega
      simp [faultOf, hzero] at hno
    exact ⟨hopen, ht.trans (s.top_eq hopen)⟩
  | seByte x kk => exact ht.trans (skip_target _ beq_iff_eq)
  | sneByte x kk => exact ht.trans (skip_target _ bne_iff_ne)
  | seReg x y => exact ht.trans (skip_target _ beq_iff_eq)
  | sneReg x y => exact ht.trans (skip_target _ bne_iff_ne)
  | skp x => exact ht.trans (skip_target _ Iff.rfl)
  | sknp x => exact ht.trans (skip_target _ (by simp [State.keyDown]))
  | _ => exact ht

/-! ## What no instruction reads -/

/-- Two states with the same fault of the table and the same keys get the same kind of answer. -/
theorem exec_same_answer {i : Instr} {s s' : State} (hfault : faultOf i s' = faultOf i s)
    (hkeys : s'.keys = s.keys) :
    (∃ f, exec i s = .next (s.raiseFault f) ∧ exec i s' = .next (s'.raiseFault f)) ∨
    (exec i s = .next s.waitForKey ∧ exec i s' = .next s'.waitForKey) ∨
    (exec i s = .next ((i.work s).jumpTo (i.target s)) ∧
      exec i s' = .next ((i.work s').jumpTo (i.target s'))) := by
  cases hf : faultOf i s with
  | some f => exact .inl ⟨f, exec_of_fault hf, exec_of_fault (hfault.trans hf)⟩
  | none =>
    by_cases hw : i.Waits s
    · exact .inr (.inl ⟨exec_of_waits hw, exec_of_waits (by rwa [Instr.Waits, hkeys])⟩)
    · exact .inr (.inr ⟨exec_of_work hf hw,
        exec_of_work (hfault.trans hf) (by rwa [Instr.Waits, hkeys])⟩)

section
variable (s : State) (b : Byte) (d : Bool) (r : RunState)

/-- The registers a block load leaves depend on the registers, I and memory alone (R166). -/
theorem loadFirst_v_congr {s u : State} (hv : u.v = s.v) (hi : u.i = s.i) (hm : u.mem = s.mem) (n : Nat) :
    (u.loadFirst n).v = (s.loadFirst n).v := by
  induction n with
  | zero => exact hv
  | succ k ih => simp [State.loadFirst, ih, State.readAtI, State.effAddr, hi, hm]

/-- The work of an instruction with another ST is its work, but for ST (R29). -/
theorem Instr.work_withST (i : Instr) :
    i.work s = { i.work { s with st := b } with st := (i.work s).st } := by
  cases i with
  | call nnn =>
    by_cases h : s.sp.val < 64 <;> simp [Instr.work, h, State.push]
  | loadRegs x =>
    have hv := loadFirst_v_congr (s := s) (u := { s with st := b }) rfl rfl rfl (x.toNat + 1)
    rw [Instr.work, Instr.work, s.loadFirst_only_regs, State.loadFirst_only_regs { s with st := b }, hv]
    rfl
  | _ => rfl

/-- The work of an instruction with other Dirty and RunState is its work, but for the two (R34). -/
theorem Instr.work_withStatus (i : Instr) :
    i.work s = { i.work { s with dirty := d, runState := r } with
                 dirty := (i.work s).dirty, runState := (i.work s).runState } := by
  cases i with
  | call nnn =>
    by_cases h : s.sp.val < 64 <;> simp [Instr.work, h, State.push]
  | loadRegs x =>
    have hv := loadFirst_v_congr (s := s) (u := { s with dirty := d, runState := r }) rfl rfl rfl (x.toNat + 1)
    rw [Instr.work, Instr.work, s.loadFirst_only_regs,
      State.loadFirst_only_regs { s with dirty := d, runState := r }, hv]
    rfl
  | _ => rfl

end

end Sys2Proof

namespace Sys2Proof.Proofs

open Sys2Proof.Machine Sys2Proof.Claims

/-- Settles O47, by the three answers of an instruction. -/
theorem programCounterAdvancesAsTheRuleSays : Obligations.ProgramCounterAdvancesAsTheRuleSays := by
  intro i s t h
  obtain ⟨f, -, rfl⟩ | ⟨-, -, rfl⟩ | ⟨hno, rfl⟩ := exec_inv h
  · exact .inr (by simp)
  · exact .inr (by simp)
  · exact .inl ⟨rfl, pcMoves_of_target hno rfl⟩

/-- Settles O48: a fault and a wait keep the registers, and so does the work of the others. -/
theorem onlyFlagWritersAndNamedDestinationsChangeVF :
    Obligations.OnlyFlagWritersAndNamedDestinationsChangeVF := by
  intro i s t h hne
  by_contra hno
  obtain ⟨f, -, rfl⟩ | ⟨-, -, rfl⟩ | ⟨-, rfl⟩ := exec_inv h
  · exact hne rfl
  · exact hne rfl
  · exact hne (i.work_vf s hno)

/-- Settles O49: the work of the other instructions leaves SP and the stack. -/
theorem onlyCallAndReturnTouchTheStack : Obligations.OnlyCallAndReturnTouchTheStack := by
  intro i s t h hne
  obtain ⟨f, -, rfl⟩ | ⟨-, -, rfl⟩ | ⟨-, rfl⟩ := exec_inv h
  · simp at hne
  · simp at hne
  · obtain hret | hcall | ⟨hsp, hstack⟩ := i.work_stack s
    · exact .inl hret
    · exact .inr hcall
    · simp [hsp, hstack] at hne

/-- Settles O50: outside the range a store names, the byte reads as before. -/
theorem onlyStoresChangeMemoryInTheirRange : Obligations.OnlyStoresChangeMemoryInTheirRange := by
  intro i s t a hwf h hne
  obtain ⟨f, -, rfl⟩ | ⟨-, -, rfl⟩ | ⟨hno, rfl⟩ := exec_inv h
  · simp at hne
  · simp at hne
  · obtain ⟨x, rfl⟩ | ⟨x, rfl⟩ | hmem := i.work_mem s
    · have hin := ldB_in_bounds hno
      have hrange : s.effAddr 0 ≤ a ∧ a < s.effAddr 0 + 3 := by
        by_contra hout
        refine hne ((State.read_after_ldB hwf _ hin a).trans (byteAfterStore_outside s _ ?_))
        omega
      simp only [State.effAddr] at hrange ⊢
      exact ⟨by omega, by omega, .inl ⟨x, rfl, by omega⟩⟩
    · have hin := storeRegs_in_bounds hno
      have hrange : s.effAddr 0 ≤ a ∧ a < s.effAddr 0 + (x.toNat + 1) := by
        by_contra hout
        refine hne ((State.read_after_storeRegs hwf x hin a).trans (byteAfterStore_outside s _ ?_))
        omega
      simp only [State.effAddr] at hrange ⊢
      exact ⟨by omega, by omega, .inr ⟨x, rfl, by omega⟩⟩
    · simp [hmem] at hne

/-- Settles O52: the fault and the target are found without ST, and the work is the same but for ST. -/
theorem noInstructionReadsTheSoundTimer : Obligations.NoInstructionReadsTheSoundTimer := by
  intro i s b
  have hfault : faultOf i { s with st := b } = faultOf i s := by cases i <;> rfl
  have htarget : i.target { s with st := b } = i.target s := by cases i <;> rfl
  obtain ⟨f, he, he'⟩ | ⟨he, he'⟩ | ⟨he, he'⟩ := exec_same_answer hfault rfl
  · exact ⟨_, _, he, he', rfl⟩
  · exact ⟨_, _, he, he', rfl⟩
  · refine ⟨_, _, he, he', ?_⟩
    rw [htarget, i.work_withST s b]
    rfl

/-- Settles O53, as O52. -/
theorem noInstructionReadsDirtyOrRunState : Obligations.NoInstructionReadsDirtyOrRunState := by
  intro i s d r
  have hfault : faultOf i { s with dirty := d, runState := r } = faultOf i s := by cases i <;> rfl
  have htarget : i.target { s with dirty := d, runState := r } = i.target s := by cases i <;> rfl
  obtain ⟨f, he, he'⟩ | ⟨he, he'⟩ | ⟨he, he'⟩ := exec_same_answer hfault rfl
  · exact ⟨_, _, he, he', rfl⟩
  · exact ⟨_, _, he, he', rfl⟩
  · refine ⟨_, _, he, he', ?_⟩
    rw [htarget, i.work_withStatus s d r]
    rfl

end Sys2Proof.Proofs
end

section
/-! The key latch and the call stack under a whole step, and the run of a core without a program. -/

namespace Sys2Proof

open Sys2Proof.Machine Sys2Proof.Claims

/-- The work of an instruction keeps every stack entry below SP: a push writes at SP (R27). -/
theorem Instr.work_entries_below (i : Instr) (s : State) {j : Nat} (hj : j < 64) (hlt : j < s.sp.val) :
    (i.work s).stack[j] = s.stack[j] := by
  cases i with
  | ret => rfl
  | call nnn =>
    by_cases h : s.sp.val < 64
    · simp [Instr.work, h, show s.sp.val ≠ j by omega]
    · simp [Instr.work, h]
  | _ => simp [Instr.work]

end Sys2Proof

namespace Sys2Proof.Machine

open Sys2Proof.Claims

/-- Stop requests leave the key latch (R238). -/
theorem State.hostEvents_stops_keys (s : State) (events : List HostEvent)
    (h : ∀ e ∈ events, e = .stop) : (s.hostEvents events).keys = s.keys := by
  induction events generalizing s with
  | nil => rfl
  | cons e rest ih =>
    obtain rfl : e = .stop := h e (by simp)
    exact ih s.requestStop fun e' h' => h e' (by simp [h'])

theorem runInstruction_entries_below {s t : State} (h : runInstruction s = .next t) {j : Nat} (hj : j < 64)
    (hlt : j < s.sp.val) : t.stack[j] = s.stack[j] := by
  obtain ⟨-, rfl⟩ | ⟨-, i, -, he⟩ | ⟨-, rfl⟩ := runInstruction_inv h
  · rfl
  · obtain ⟨f, -, rfl⟩ | ⟨-, -, rfl⟩ | ⟨-, rfl⟩ := exec_inv he
    · rfl
    · rfl
    · exact i.work_entries_below s hj hlt
  · rfl

theorem step_entries_below {s t : State} (hno : NoResetComing s) (h : step s = .next t) {j : Nat}
    (hj : j < 64) (hlt : j < s.sp.val) : t.stack[j] = s.stack[j] := by
  have hports := State.openTurn_only_ports hno
  have hsp : s.openTurn.sp = s.sp := by rw [hports]
  have hstack : s.openTurn.stack = s.stack := by rw [hports]
  obtain ⟨-, u, hu, rfl⟩ | ⟨-, rfl⟩ := step_inv h
  · have hbelow := runInstruction_entries_below hu hj (by rwa [hsp])
    simpa [hstack] using hbelow
  · simp [hstack]

/-- A run that never goes below depth d keeps every entry below d (R104). -/
theorem runAtDepth_entries_below {d k : Nat} {s u : State} (hrun : RunAtDepth d k s u) (hd : d ≤ s.sp.val)
    {j : Nat} (hj : j < 64) (hlt : j < d) : u.stack[j] = s.stack[j] := by
  induction k generalizing s with
  | zero => rw [show u = s from hrun]
  | succ k ih =>
    obtain ⟨hno, t, hstep, hdt, hrest⟩ := hrun
    rw [ih hrest hdt, step_entries_below hno hstep hj (by omega)]

/-- The first pair of a canonical list, and the rest. -/
theorem Memory.wfFrom_cons {a : Nat} {val : Byte} {rest : Memory} {lo : Nat}
    (h : Memory.wfFrom lo ((a, val) :: rest) = true) :
    lo ≤ a ∧ a ≤ 0xFFF ∧ val ≠ background a ∧ Memory.wfFrom (a + 1) rest = true := by
  simpa [Memory.wfFrom, and_assoc] using h

/-- At the address of its first pair a canonical memory reads otherwise than unlisted. -/
theorem Memory.read_head_ne {a : Nat} {val : Byte} {rest : Memory} {lo : Nat}
    (h : Memory.wfFrom lo ((a, val) :: rest) = true) : Memory.read ((a, val) :: rest) a ≠ background a := by
  obtain ⟨-, -, hne, -⟩ := Memory.wfFrom_cons h
  simpa [Memory.read] using hne

/-- Where two canonical memories read alike, the first address of the one is no less than the other's. -/
theorem Memory.head_le_of_read_eq {a b : Nat} {val u : Byte} {rest rest' : Memory} {lo lo' : Nat}
    (h : Memory.wfFrom lo ((a, val) :: rest) = true) (h' : Memory.wfFrom lo' ((b, u) :: rest') = true)
    (heq : Memory.read ((a, val) :: rest) a = Memory.read ((b, u) :: rest') a) : b ≤ a := by
  by_contra hlt
  have hbelow : Memory.wfFrom b ((b, u) :: rest') = true := by
    obtain ⟨-, hb, hne, hrest⟩ := Memory.wfFrom_cons h'
    simp [Memory.wfFrom, hb, hne, hrest]
  exact Memory.read_head_ne h (heq.trans (Memory.read_below hbelow (by omega)))

/-- Canonical memories that read alike are equal, from any lower bounds. -/
theorem Memory.eq_of_read_eq {m m' : Memory} {lo lo' : Nat} (h : m.wfFrom lo = true)
    (h' : m'.wfFrom lo' = true) (heq : ∀ a, m.read a = m'.read a) : m = m' := by
  induction m generalizing m' lo lo' with
  | nil =>
    cases m' with
    | nil => rfl
    | cons p rest' => exact absurd (heq p.1).symm (Memory.read_head_ne h')
  | cons p rest ih =>
    obtain ⟨a, val⟩ := p
    cases m' with
    | nil => exact absurd (heq a) (Memory.read_head_ne h)
    | cons q rest' =>
      obtain ⟨b, u⟩ := q
      obtain rfl : a = b := Nat.le_antisymm (Memory.head_le_of_read_eq h' h (heq b).symm)
        (Memory.head_le_of_read_eq h h' (heq a))
      obtain ⟨-, -, -, hrest⟩ := Memory.wfFrom_cons h
      obtain ⟨-, -, -, hrest'⟩ := Memory.wfFrom_cons h'
      have hval : val = u := by simpa [Memory.read] using heq a
      have htail : rest = rest' := ih hrest hrest' fun c => by
        by_cases hc : c = a
        · rw [Memory.read_below hrest (by omega), Memory.read_below hrest' (by omega)]
        · simpa [Memory.read, hc] using heq c
      rw [hval, htail]

/-- k no-op steps after a reset without a program: PC has moved by 2k, the engine runs with nothing to come, and
memory is zero above the font (R263). -/
structure NoopRun (k : Nat) (s : State) : Prop where
  script : s.script = []
  running : s.runState = .running
  noStop : s.stopPending = false
  pc : s.pc.toNat = 0x200 + 2 * k
  zero : ∀ a, 80 ≤ a → s.mem.read a = 0

theorem noopRun_resetCore {s : State} (h : s.script = []) : NoopRun 0 s.resetCore where
  script := h
  running := rfl
  noStop := rfl
  pc := rfl
  zero a ha := by rw [State.read_resetCore, if_neg (by omega)]

section
variable {k : Nat} {s : State} (h : NoopRun k s)
include h

/-- With an empty script the host's turn changes nothing but the counter of turns. -/
theorem NoopRun.openTurn : s.openTurn = { s with script := s.script.tail, turns := s.turns + 1 } :=
  State.openTurn_quiet (by simp [State.turnEvents, h.script])

/-- One more no-op step, while PC can be fetched from. -/
theorem NoopRun.step (hk : k < 1792) : ∃ t, step s = .next t ∧ NoopRun (k + 1) t := by
  have hpc := h.pc
  have hfetch : s.pc.toNat ≤ 0xFFE := by omega
  have hword : s.mem.word s.pc.toNat = 0 := by
    rw [Memory.word, h.zero _ (by omega), h.zero _ (by omega)]
    rfl
  have hnoop : runInstruction s.openTurn = .next s.openTurn.advance := by
    rw [h.openTurn]
    exact runInstruction_of_unmatched hfetch (by rw [hword]; rfl)
  have hrun : s.openTurn.advance.runState = .running := by simpa [h.openTurn] using h.running
  obtain ⟨-, -, -, -, hstate, hstop⟩ := State.endCycle_points s.turnTicks hrun
  refine ⟨_, step_of_running (by simpa using hrun) hnoop, ?_, ?_, hstop, ?_, ?_⟩
  · simp [h.openTurn, h.script]
  · simpa [h.openTurn, h.noStop] using hstate
  · simp [h.openTurn, BitVec.toNat_add]
    omega
  · simpa [h.openTurn] using h.zero

/-- At 0x1000 the step takes the fetch fault. -/
theorem NoopRun.fetchFault (hk : k = 1792) :
    ∃ t, Machine.step s = .next t ∧ t.pc.toNat = 0x1000 ∧
      t.runState = .faulted (.fetchOutOfBounds 0x1000#16) := by
  have hpc : s.openTurn.pc = 0x1000#16 := BitVec.eq_of_toNat_eq (by rw [h.openTurn]; simp [h.pc, hk])
  have hfault := runInstruction_of_fetchFault (s := s.openTurn) (by simp [hpc])
  refine ⟨_, step_of_running (by simpa [h.openTurn] using h.running) hfault, by simp [hpc], ?_⟩
  rw [State.endCycle_of_halted _ (by simp)]
  simp [hpc]

end

theorem run_cons {k : Nat} {s v : State} (h : step s = .next v) :
    Host.Core.run core (k + 1) s = Host.Core.run core k v := by
  have hcore : core.step s = .next v := h
  simp only [Host.Core.run, hcore]

/-- A run goes on by one step at its end. -/
theorem run_succ {k : Nat} {s t u : State} (h : Host.Core.run core k s = .next t)
    (hstep : step t = .next u) : Host.Core.run core (k + 1) s = .next u := by
  induction k generalizing s with
  | zero =>
    cases h
    exact run_cons hstep
  | succ k ih =>
    obtain ⟨v, hv⟩ := step_next s
    rw [run_cons hv] at h ⊢
    exact ih h

end Sys2Proof.Machine

namespace Sys2Proof.Proofs

open Sys2Proof.Machine Sys2Proof.Claims

/-- Settles O31: neither the host's turn nor the end of the cycle touches the stack. -/
theorem stepKeepsTheEntriesBelowSP : Obligations.StepKeepsTheEntriesBelowSP :=
  fun _ _ hno h _ hj hlt => step_entries_below hno h hj hlt

/-- Settles O32: the body keeps the entry the CALL pushed, and RET pops it. -/
theorem returnAfterABalancedBodyResumesAtTheCall :
    Obligations.ReturnAfterABalancedBodyResumesAtTheCall := by
  intro s t u nnn k hroom hcall hbody hsp
  obtain ⟨hfull, -⟩ | ⟨_, he⟩ := execCall_cases nnn s
  · omega
  · rw [he] at hcall
    cases hcall
    have hdepth : u.sp.val = s.sp.val + 1 := congrArg Fin.val hsp
    have hentry : u.stack[s.sp.val] = s.pc + 2#16 := by
      rw [runAtDepth_entries_below hbody (Nat.le_refl _) hroom (Nat.lt_succ_self _)]
      simp
    obtain ⟨hempty, -⟩ | ⟨hopen, hret⟩ := execRet_cases u
    · omega
    · refine ⟨_, hret, ?_, Fin.ext ?_⟩
      · show u.top = _
        rw [u.top_eq hopen, ← hentry]
        simp [hdepth]
      · simp [hdepth]

/-- Settles O51: no instruction writes the latch, and stop requests leave it. -/
theorem onlyTheHostWritesTheKeyLatch : Obligations.OnlyTheHostWritesTheKeyLatch := by
  refine ⟨fun i s t h => (exec_frame h).1, fun s t hstops h => ?_⟩
  have hopen : s.openTurn.keys = s.keys := State.hostEvents_stops_keys _ _ hstops
  obtain ⟨-, u, hu, rfl⟩ | ⟨-, rfl⟩ := step_inv h
  · obtain ⟨hkeys, -⟩ := runInstruction_frame hu
    simp [hkeys, hopen]
  · exact hopen

/-- Settles O54, by induction on the one list, pair by pair. -/
theorem memoriesThatReadAlikeAreEqual : Obligations.MemoriesThatReadAlikeAreEqual :=
  fun _ _ h h' heq => Memory.eq_of_read_eq h h' heq

/-- Settles O55: 1792 no-op steps, by induction, and then the fault. -/
theorem resetCoreWithoutProgramRunsToTheFetchFault :
    Obligations.ResetCoreWithoutProgramRunsToTheFetchFault := by
  intro s hscript
  have hrun (k : Nat) (hk : k ≤ 1792) :
      ∃ t, Host.Core.run core k (s.hostEvent .reset) = .next t ∧ NoopRun k t := by
    induction k with
    | zero => exact ⟨_, rfl, noopRun_resetCore hscript⟩
    | succ k ih =>
      obtain ⟨t, ht, hnoop⟩ := ih (by omega)
      obtain ⟨u, hu, hnext⟩ := hnoop.step (by omega)
      exact ⟨u, run_succ ht hu, hnext⟩
  constructor
  · intro k hk
    obtain ⟨t, ht, hnoop⟩ := hrun k hk
    exact ⟨t, ht, hnoop.pc, hnoop.running⟩
  · obtain ⟨t, ht, hnoop⟩ := hrun 1792 (Nat.le_refl _)
    obtain ⟨u, hu, hpc, hfault⟩ := hnoop.fetchFault rfl
    exact ⟨u, run_succ ht hu, hpc, hfault⟩

end Sys2Proof.Proofs
end

section
/-! The invariant: a fault of the table tells the truth, and an instruction, the end of a cycle, a host event and so
a step keep the invariant. -/

namespace Sys2Proof.Machine

/-- A pop reads an entry of the stack. -/
theorem State.top_mem (s : State) : s.top ∈ s.stack.toList := by
  have hlt : s.sp.val - 1 < 64 := by omega
  simp [State.top, List.getD_eq_getElem?_getD, hlt]

end Sys2Proof.Machine

namespace Sys2Proof

open Sys2Proof.Machine Sys2Proof.Claims

theorem guard_of_ite_some {P : Prop} [Decidable P] {g f : Fault} (h : (if P then some g else none) = some f) :
    P ∧ g = f := by
  simpa using h

/-- The fault of the table is true of the state in which the word at PC is the instruction's (R221): the op it
records is that word, and the condition is the table's. -/
theorem faultTruthful_of_faultOf {i : Instr} {s : State} {f : Fault}
    (hi : decodeWord (s.mem.word s.pc.toNat) = some i) (hf : faultOf i s = some f) : FaultTruthful s f := by
  have hop := encode_of_decodeWord hi
  cases i with
  | call nnn =>
    obtain ⟨hsp, rfl⟩ := guard_of_ite_some hf
    exact ⟨rfl, hop, by simp, hsp⟩
  | ret =>
    obtain ⟨hsp, rfl⟩ := guard_of_ite_some hf
    exact ⟨rfl, hop, rfl, hsp⟩
  | drw x y n =>
    obtain ⟨⟨hn, hout⟩, rfl⟩ := guard_of_ite_some hf
    exact ⟨rfl, hop, rfl, .inl (by simpa using ⟨hn, hout⟩)⟩
  | loadRegs x =>
    obtain ⟨hout, rfl⟩ := guard_of_ite_some hf
    exact ⟨rfl, hop, rfl, .inr (by simpa using hout)⟩
  | ldB x =>
    obtain ⟨hout, rfl⟩ := guard_of_ite_some hf
    exact ⟨rfl, hop, rfl, .inl (by simpa using hout)⟩
  | storeRegs x =>
    obtain ⟨hout, rfl⟩ := guard_of_ite_some hf
    exact ⟨rfl, hop, rfl, .inr (by simpa using hout)⟩
  | skp x =>
    obtain ⟨hout, rfl⟩ := guard_of_ite_some hf
    exact ⟨rfl, hop, by simp, .inl (by simp), by simp, hout⟩
  | sknp x =>
    obtain ⟨hout, rfl⟩ := guard_of_ite_some hf
    exact ⟨rfl, hop, by simp, .inr (by simp), by simp, hout⟩
  | _ => cases hf

/-- A target is at most 0x10FE (R75, R101, R110). -/
theorem Instr.target_le (i : Instr) {s : State} (hpc : s.pc.toNat ≤ 0xFFE)
    (hstack : ∀ w ∈ s.stack.toList, w.toNat ≤ 0x1000) : (i.target s).toNat ≤ 0x10FE := by
  have hnext : (s.pc + 2#16).toNat ≤ 0x1000 := by rw [BitVec.toNat_add]; simp; omega
  have hskip (c : Bool) : (if c then s.pc + 4#16 else s.pc + 2#16).toNat ≤ 0x1002 := by
    cases c <;> simp [BitVec.toNat_add] <;> omega
  cases i with
  | ret => exact (hstack _ s.top_mem).trans (by decide)
  | jp nnn | call nnn =>
    have hnnn := nnn.isLt
    simp [Instr.target]
    omega
  | jpV0 nnn =>
    have hnnn := nnn.isLt
    have hv := (s.readV 0x0#4).isLt
    rw [Instr.target, jpV0_target_toNat]
    omega
  | seByte | sneByte | seReg | sneReg | skp | sknp => exact (hskip _).trans (by decide)
  | _ => exact hnext.trans (by decide)

/-- The work of an instruction without fault keeps memory canonical (R50). -/
theorem Instr.work_mem_wf {i : Instr} {s : State} (hno : faultOf i s = none) (hwf : s.mem.wf = true) :
    (i.work s).mem.wf = true := by
  obtain ⟨x, rfl⟩ | ⟨x, rfl⟩ | hmem := i.work_mem s
  · have hin := ldB_in_bounds hno
    exact Memory.wf_writeBytes hwf (by simp [decimalDigits]; omega)
  · have hin := storeRegs_in_bounds hno
    have hx := x.isLt
    exact Memory.wf_writeBytes hwf (by rw [s.firstRegs_length _ (by omega)]; omega)
  · rwa [hmem]

/-- The work of an instruction keeps the bound of the stack entries: a push writes PC + 2 (R103). -/
theorem Instr.work_stack_le (i : Instr) {s : State} (hpc : s.pc.toNat ≤ 0xFFE)
    (hstack : ∀ w ∈ s.stack.toList, w.toNat ≤ 0x1000) : ∀ w ∈ (i.work s).stack.toList, w.toNat ≤ 0x1000 := by
  obtain rfl | ⟨nnn, rfl⟩ | ⟨-, hkeep⟩ := i.work_stack s
  · exact hstack
  · by_cases h : s.sp.val < 64
    · intro w hw
      simp only [Instr.work, h, dite_true, State.push_fields, Vector.toList_set] at hw
      obtain hw | rfl := List.mem_or_eq_of_mem_set hw
      · exact hstack w hw
      · rw [BitVec.toNat_add]; simp; omega
    · simpa [Instr.work, h] using hstack
  · rwa [hkeep]

end Sys2Proof

namespace Sys2Proof.Machine

open Sys2Proof.Claims

/-- A state in which no fault is named is in the invariant when memory, PC and the stack are. -/
theorem State.inv_of_no_fault {s : State} (hwf : s.mem.wf = true) (hpc : s.pc.toNat ≤ 0x10FE)
    (hstack : ∀ w ∈ s.stack.toList, w.toNat ≤ 0x1000) (hrun : ∀ f, s.runState ≠ .faulted f)
    (hout : ∀ f, s.outcome ≠ some (.faulted f)) : s.Inv where
  memCanonical := hwf
  pcBound := hpc
  stackBound := hstack
  faultOnPort f := ⟨fun h => absurd h (hrun f), fun h => absurd h (hout f)⟩
  faultTold f h := absurd h (hrun f)

theorem State.Inv.no_fault_on_port {s : State} (h : s.Inv) (hrun : s.runState = .running) (f : Fault) :
    s.outcome ≠ some (.faulted f) := by
  rw [Ne, ← h.faultOnPort f, hrun]
  simp

/-- An instruction whose word is at PC keeps the invariant in a running engine. -/
theorem exec_keeps_inv {i : Instr} {s t : State} (h : s.Inv) (hrun : s.runState = .running)
    (hpc : s.pc.toNat ≤ 0xFFE) (hi : decodeWord (s.mem.word s.pc.toNat) = some i)
    (he : exec i s = .next t) : t.Inv := by
  obtain ⟨f, hf, rfl⟩ | ⟨-, -, rfl⟩ | ⟨hno, rfl⟩ := exec_inv he
  · exact State.raiseFault_inv h.memCanonical h.pcBound h.stackBound (faultTruthful_of_faultOf hi hf)
  · exact State.inv_of_no_fault h.memCanonical h.pcBound h.stackBound (by simp [hrun]) (by simp)
  · exact State.inv_of_no_fault (Instr.work_mem_wf hno h.memCanonical) (i.target_le hpc h.stackBound)
      (i.work_stack_le hpc h.stackBound) (by simp [hrun]) (by simp)

theorem runInstruction_keeps_inv {s t : State} (h : s.Inv) (hrun : s.runState = .running)
    (hr : runInstruction s = .next t) : t.Inv := by
  obtain ⟨hpc, rfl⟩ | ⟨hpc, i, hi, he⟩ | ⟨hpc, rfl⟩ := runInstruction_inv hr
  · exact State.raiseFault_inv h.memCanonical h.pcBound h.stackBound ⟨rfl, hpc⟩
  · exact exec_keeps_inv h hrun hpc hi he
  · have hnext : (s.pc + 2#16).toNat ≤ 0x10FE := by rw [BitVec.toNat_add]; simp; omega
    exact State.inv_of_no_fault h.memCanonical hnext h.stackBound (by simp [hrun]) (by simp)

/-- The end of a cycle keeps the invariant: it moves a running engine to Stopped at most (R238). -/
theorem State.endCycle_keeps_inv (k : Nat) {t : State} (h : t.Inv) : (t.endCycle k).Inv := by
  by_cases hrun : t.runState = .running
  · obtain ⟨-, -, -, -, hstate, -⟩ := State.endCycle_points k hrun
    refine State.inv_of_no_fault (by simpa using h.memCanonical) (by simpa using h.pcBound)
      (by simpa using h.stackBound) (fun f => ?_) (fun f => by simpa using h.no_fault_on_port hrun f)
    rw [hstate]
    split <;> simp
  · rwa [State.endCycle_of_halted k hrun]

/-- A reset gives a state in the invariant, from any state (R260). -/
theorem State.resetCore_inv (s : State) : s.resetCore.Inv :=
  State.inv_of_no_fault s.resetCore_mem_wf (by simp [State.resetCore])
    (fun w hw => by
      have hzero : w = 0 := by simpa [State.resetCore] using hw
      simp [hzero])
    (by simp [State.resetCore]) (by simp [State.resetCore])

theorem State.hostEvent_keeps_inv {s : State} (h : s.Inv) (e : HostEvent) : (s.hostEvent e).Inv := by
  cases e with
  | key index pressed => exact h.congr rfl rfl rfl rfl rfl rfl rfl rfl
  | stop => exact h.congr rfl rfl rfl rfl rfl rfl rfl rfl
  | reset => exact s.resetCore_inv
  | load bytes =>
    rw [State.hostEvent]
    cases hwf : imageWf bytes with
    | false =>
      rw [State.loadImage_of_rejected hwf]
      exact h.congr rfl rfl rfl rfl rfl rfl rfl rfl
    | true =>
      have hmem := State.loadImage_mem_wf (s := s) hwf
      rw [State.loadImage_of_accepted hwf] at hmem ⊢
      have hreset := s.resetCore_inv
      exact State.inv_of_no_fault hmem hreset.pcBound hreset.stackBound (by simp [State.resetCore])
        (by simp [State.resetCore])

theorem State.hostEvents_keep_inv {s : State} (h : s.Inv) (events : List HostEvent) :
    (s.hostEvents events).Inv := by
  induction events generalizing s with
  | nil => exact h
  | cons e rest ih => exact ih (State.hostEvent_keeps_inv h e)

theorem State.openTurn_keeps_inv {s : State} (h : s.Inv) : s.openTurn.Inv :=
  State.hostEvents_keep_inv (s := { s with script := s.script.tail, turns := s.turns + 1 }) (h.congr rfl rfl rfl rfl rfl rfl rfl rfl) _

end Sys2Proof.Machine

namespace Sys2Proof.Proofs

open Sys2Proof.Machine Sys2Proof.Claims

/-- Settles O56: the host's turn, the instruction step and the end of the cycle each keep the invariant. -/
theorem stepKeepsTheInvariant : Obligations.StepKeepsTheInvariant := by
  intro s t hinv h
  have hopen := State.openTurn_keeps_inv hinv
  obtain ⟨hrun, u, hu, rfl⟩ | ⟨-, rfl⟩ := step_inv h
  · exact State.endCycle_keeps_inv _ (runInstruction_keeps_inv hopen hrun hu)
  · exact hopen

/-- Settles O57: memory is empty, PC is 0x200, every entry is zero, and no fault is named. -/
theorem resetStateMeetsTheInvariant : Obligations.ResetStateMeetsTheInvariant :=
  State.inv_of_no_fault rfl (by decide)
    (fun w hw => by
      have hzero : w = 0 := by simpa [State.reset] using hw
      simp [hzero])
    (by simp [State.reset]) (by simp [State.reset])

end Sys2Proof.Proofs
end
